-- ==== Sys2Proof/Word.lean ====
section
/-! DEFINITION. The words of the LfsrCipher core: bits, bytes, symbols, frames. -/

namespace Sys2Proof

/-- A bit, an element of {0, 1} (R6): `false` is 0, `true` is 1, and XOR is `^^`. -/
abbrev Bit := Bool

/-- A byte, an integer 0 to 255 (R6, R9); bit 7 is the most significant (R62). -/
abbrev Byte := BitVec 8

/-- A symbol, one character of an operand string (R8), carried as one byte (R66, D4). -/
abbrev Symbol := Byte

/-- A command frame or a response frame: a finite sequence of bytes (R61). -/
abbrev Frame := List Byte

end Sys2Proof
end

