-- ==== Sys2Proof/Config.lean ====
section
/-! DEFINITION. The parameters of the core (R5): symbol codes, steps per byte, and the open bounds LMAX and NMAX. -/

namespace Sys2Proof

/-- `SYM0`, the code of the character '0' (R5, R66).
PRESUMED (the spec's G1, ASCII; log entry 10): unsafe for a core that codes its symbols otherwise. -/
def sym0 : Symbol := 0x30#8

/-- `SYM1`, the code of the character '1' (R5, R66). PRESUMED, as `sym0` (log entry 10). -/
def sym1 : Symbol := 0x31#8

/-- Register steps per `shiftByte()` (R5, R104; C2). -/
def stepsPerByte : Nat := 8

/-- The open bounds of R5 and D3, a model argument: `lmax` the largest seed length a LOAD accepts,
`nmax` the largest other operand length and the largest `steps`. `none` is unbounded.
DESIGN CHOICE (log entry 4): safe, since statements hold for every value of the two. -/
structure Limits where
  lmax : Option Nat
  nmax : Option Nat
  deriving DecidableEq, Repr

/-- No bound beyond what the frame fields can carry (R5, last sentence). -/
def Limits.unbounded : Limits := ⟨none, none⟩

/-- `n` is not above the bound (R69 case (c)). -/
def withinBound : Option Nat → Nat → Bool
  | none, _ => true
  | some m, n => decide (n ≤ m)

end Sys2Proof
end

