-- ==== Sys2Proof/Syntax.lean ====
section
/-! DEFINITION. The eleven abstract commands of the core (R60, R67), one constructor per row of the opcode table. -/

namespace Sys2Proof

/-- An abstract command (R60): the operands are the integers, bytes and strings of R41. -/
inductive Instr where
  /-- LOAD `seed, tap` (0x01, format SI; R100). -/
  | load (seed : List Symbol) (tap : Int)
  /-- SHIFT (0x02, format N; R102). -/
  | shift
  /-- SHIFTBYTE (0x03, format N; R104). -/
  | shiftbyte
  /-- GENKS `steps` (0x04, format I; R120). -/
  | genks (steps : Int)
  /-- COMBINE `a, b` (0x05, format SS of strings; R130). -/
  | combine (a b : List Symbol)
  /-- ENCRYPT `plaintext, keystream` (0x06, format SS of strings; R133). -/
  | encrypt (p k : List Symbol)
  /-- DECRYPT `ciphertext, keystream` (0x07, format SS of strings; R134). -/
  | decrypt (c k : List Symbol)
  /-- COMBINEB `a, b` (0x08, format SS of byte sequences; R135). -/
  | combineb (a b : List Byte)
  /-- XORBYTE `v` (0x09, format B; R150). -/
  | xorbyte (v : Byte)
  /-- RDLAST (0x0A, format N; R107). -/
  | rdlast
  /-- RDSTATE (0x0B, format N; R108). -/
  | rdstate
  deriving DecidableEq, Repr

end Sys2Proof
end

