-- ==== Sys2Proof/WellFormed.lean ====
section
/-! DEFINITION. Which commands a frame can carry: field ranges (R62) and the bounds LMAX and NMAX (R69 case (c)). -/

namespace Sys2Proof

/-- A length that a `u32` field can carry (R62). -/
def fitsU32 (n : Nat) : Bool := decide (n < 2 ^ 32)

/-- An integer that an `i32` field can carry (R62). -/
def fitsI32 (v : Int) : Bool := decide (-(2 ^ 31) ≤ v) && decide (v < 2 ^ 31)

/-- A string or byte-sequence operand of length `n` that a `str` or `bytes` field can carry and the bound admits. -/
def okLength (bound : Option Nat) (n : Nat) : Bool := fitsU32 n && withinBound bound n

/-- `steps` is not above NMAX (R69 case (c)); a negative `steps` is above nothing. -/
def okSteps (bound : Option Nat) (steps : Int) : Bool := withinBound bound steps.toNat

/-- A command that has a frame which an implementation with these bounds decodes.
Operand values that the semantics refuses (R70) are well formed. -/
def Instr.wellFormed (lim : Limits) : Instr → Bool
  | .load seed tap => okLength lim.lmax seed.length && fitsI32 tap
  | .shift => true
  | .shiftbyte => true
  | .genks steps => fitsI32 steps && okSteps lim.nmax steps
  | .combine a b => okLength lim.nmax a.length && okLength lim.nmax b.length
  | .encrypt p k => okLength lim.nmax p.length && okLength lim.nmax k.length
  | .decrypt c k => okLength lim.nmax c.length && okLength lim.nmax k.length
  | .combineb a b => okLength lim.nmax a.length && okLength lim.nmax b.length
  | .xorbyte _ => true
  | .rdlast => true
  | .rdstate => true

end Sys2Proof
end

