-- ==== Sys2Proof/Decode.lean ====
section
/-! DEFINITION. Command frames: the total decoder (R61 to R69) and, after it, the encoder; field types of R62. -/

namespace Sys2Proof

/-- Why a frame selects no command. All are answered `IllegalCommand` (R68, R69); the names are the model's. -/
inductive DecodeError where
  /-- Zero bytes (R68). -/
  | emptyFrame
  /-- Byte 0 is 0x00 or 0x0C to 0xFF (R68). -/
  | illegalOpcode
  /-- A fixed field, a length field or the elements after it are cut off (R69 case (a)). -/
  | tooShort
  /-- Bytes stand after the computed length (R69 case (b)). -/
  | trailingBytes
  /-- A length field or `steps` is above LMAX or NMAX (R69 case (c)). -/
  | overBound
  deriving DecidableEq, Repr

/-- `u32`: B0*2^24 + B1*2^16 + B2*2^8 + B3, most significant byte first (R44, R62). -/
def u32Value (b0 b1 b2 b3 : Byte) : Nat :=
  b0.toNat * 2 ^ 24 + b1.toNat * 2 ^ 16 + b2.toNat * 2 ^ 8 + b3.toNat

/-- The two's-complement reading of a `u32` value: minus 2^32 when bit 31 is set (R62).
PRESUMED (the spec's G2; log entry 11): unsafe for a core that reads the field otherwise. -/
def i32OfU32 (n : Nat) : Int := if n < 2 ^ 31 then (n : Int) else (n : Int) - 2 ^ 32

/-- A `u32` field and the bytes after it. -/
def readU32 : List Byte → Except DecodeError (Nat × List Byte)
  | b0 :: b1 :: b2 :: b3 :: rest => .ok (u32Value b0 b1 b2 b3, rest)
  | _ => .error .tooShort

/-- An `i32` field and the bytes after it. -/
def readI32 (bytes : List Byte) : Except DecodeError (Int × List Byte) :=
  match readU32 bytes with
  | .ok (n, rest) => .ok (i32OfU32 n, rest)
  | .error e => .error e

/-- A `str` or `bytes` field: a `u32` length `n`, then `n` elements (R62), refused above the bound (R69). -/
def readStr (bound : Option Nat) (bytes : List Byte) : Except DecodeError (List Byte × List Byte) :=
  match readU32 bytes with
  | .ok (n, rest) =>
    if withinBound bound n = false then .error .overBound
    else if rest.length < n then .error .tooShort
    else .ok (rest.take n, rest.drop n)
  | .error e => .error e

/-- Format `N` after the opcode byte: nothing (R63). -/
def decodeN (i : Instr) : List Byte → Except DecodeError Instr
  | [] => .ok i
  | _ :: _ => .error .trailingBytes

/-- Format `I` after the opcode byte: `imm:i32` (R63), here GENKS's `steps`, refused above NMAX (R69). -/
def decodeI (bound : Option Nat) (mk : Int → Instr) (bytes : List Byte) : Except DecodeError Instr :=
  match readI32 bytes with
  | .ok (imm, rest) => if okSteps bound imm then decodeN (mk imm) rest else .error .overBound
  | .error e => .error e

/-- Format `B` after the opcode byte: `v:u8` (R63). -/
def decodeB (mk : Byte → Instr) : List Byte → Except DecodeError Instr
  | v :: rest => decodeN (mk v) rest
  | [] => .error .tooShort

/-- Format `SI` after the opcode byte: `s:str`, `imm:i32` (R63). -/
def decodeSI (bound : Option Nat) (mk : List Byte → Int → Instr) (bytes : List Byte) :
    Except DecodeError Instr :=
  match readStr bound bytes with
  | .ok (s, rest) =>
    match readI32 rest with
    | .ok (imm, rest') => decodeN (mk s imm) rest'
    | .error e => .error e
  | .error e => .error e

/-- Format `SS` after the opcode byte: two `str` or two `bytes` fields (R63). -/
def decodeSS (bound : Option Nat) (mk : List Byte → List Byte → Instr) (bytes : List Byte) :
    Except DecodeError Instr :=
  match readStr bound bytes with
  | .ok (a, rest) =>
    match readStr bound rest with
    | .ok (b, rest') => decodeN (mk a b) rest'
    | .error e => .error e
  | .error e => .error e

/-- The opcode map (R67): byte 0 selects the command and its format; every other value is illegal (R68). -/
def decodeBody (lim : Limits) (op : Byte) (rest : List Byte) : Except DecodeError Instr :=
  match op.toNat with
  | 0x01 => decodeSI lim.lmax .load rest
  | 0x02 => decodeN .shift rest
  | 0x03 => decodeN .shiftbyte rest
  | 0x04 => decodeI lim.nmax .genks rest
  | 0x05 => decodeSS lim.nmax .combine rest
  | 0x06 => decodeSS lim.nmax .encrypt rest
  | 0x07 => decodeSS lim.nmax .decrypt rest
  | 0x08 => decodeSS lim.nmax .combineb rest
  | 0x09 => decodeB .xorbyte rest
  | 0x0A => decodeN .rdlast rest
  | 0x0B => decodeN .rdstate rest
  | _ => .error .illegalOpcode

/-- Decoding is total (R69): every byte sequence gives one command or is refused by name. -/
def decodeFrame (lim : Limits) : Frame → Except DecodeError Instr
  | [] => .error .emptyFrame
  | op :: rest => decodeBody lim op rest

/-- The four bytes of a `u32` field, most significant first (R62). -/
def u32Bytes (n : Nat) : List Byte :=
  [BitVec.ofNat 8 (n / 2 ^ 24), BitVec.ofNat 8 (n / 2 ^ 16), BitVec.ofNat 8 (n / 2 ^ 8), BitVec.ofNat 8 n]

/-- The four bytes of an `i32` field: the `u32` bytes of the two's complement (R62). -/
def i32Bytes (v : Int) : List Byte := u32Bytes (v % 2 ^ 32).toNat

/-- The bytes of a `str` or `bytes` field (R62). -/
def strBytes (xs : List Byte) : List Byte := u32Bytes xs.length ++ xs

/-- The command frame of a well-formed command (R63, R67). -/
def encode : Instr → Frame
  | .load seed tap => 0x01#8 :: (strBytes seed ++ i32Bytes tap)
  | .shift => [0x02#8]
  | .shiftbyte => [0x03#8]
  | .genks steps => 0x04#8 :: i32Bytes steps
  | .combine a b => 0x05#8 :: (strBytes a ++ strBytes b)
  | .encrypt p k => 0x06#8 :: (strBytes p ++ strBytes k)
  | .decrypt c k => 0x07#8 :: (strBytes c ++ strBytes k)
  | .combineb a b => 0x08#8 :: (strBytes a ++ strBytes b)
  | .xorbyte v => [0x09#8, v]
  | .rdlast => [0x0A#8]
  | .rdstate => [0x0B#8]

/-- Case (c) of R69 read on the command: no length and no `steps` is above LMAX or NMAX. -/
def Instr.withinLimits (lim : Limits) : Instr → Bool
  | .load seed _ => withinBound lim.lmax seed.length
  | .shift => true
  | .shiftbyte => true
  | .genks steps => okSteps lim.nmax steps
  | .combine a b => withinBound lim.nmax a.length && withinBound lim.nmax b.length
  | .encrypt p k => withinBound lim.nmax p.length && withinBound lim.nmax k.length
  | .decrypt c k => withinBound lim.nmax c.length && withinBound lim.nmax k.length
  | .combineb a b => withinBound lim.nmax a.length && withinBound lim.nmax b.length
  | .xorbyte _ => true
  | .rdlast => true
  | .rdstate => true

/-- The `u32` at an offset of a frame, bytes that are not there counted as zero. -/
def u32At (f : Frame) (offset : Nat) : Nat :=
  u32Value (f.getD offset 0) (f.getD (offset + 1) 0) (f.getD (offset + 2) 0) (f.getD (offset + 3) 0)

/-- The total length of a command frame, told from its opcode and length fields (R64); `none` for an illegal opcode. -/
def frameLength (f : Frame) : Option Nat :=
  match f with
  | [] => none
  | op :: _ =>
    match op.toNat with
    | 0x01 => some (9 + u32At f 1)
    | 0x02 | 0x03 | 0x0A | 0x0B => some 1
    | 0x04 => some 5
    | 0x05 | 0x06 | 0x07 | 0x08 => some (9 + u32At f 1 + u32At f (5 + u32At f 1))
    | 0x09 => some 2
    | _ => none

/-- The low `n` bytes of a number, least significant first. -/
def tableBytes : Nat → Nat → List Byte
  | 0, _ => []
  | n + 1, w => BitVec.ofNat 8 w :: tableBytes n (w / 256)

/-- The frame of a row of spec/opcode_table.json whose bits are `w`: byte `k` is bits `8k+7` to `8k`, and the
operand bytes above `nbits` are zeros, up to the length that R64 gives the frame. -/
def frameOfTableWord (nbits w : Nat) : Frame :=
  let f := tableBytes (nbits / 8) w
  match frameLength f with
  | none => f
  | some n => f ++ List.replicate (n - f.length) 0#8

/-- The command that the decoder reads from a row's bits (unbounded LMAX and NMAX). -/
def decodeTableWord (nbits w : Nat) : Option Instr :=
  match decodeFrame Limits.unbounded (frameOfTableWord nbits w) with
  | .ok i => some i
  | .error _ => none

end Sys2Proof
end

