-- ==== Sys2Proof/Machine/State.lean ====
section
/-! DEFINITION. The state of the core, its reset value, response types, and the two ways a step of the model can stop. -/

namespace Sys2Proof.Machine

/-- The status of a response (R170). -/
inductive Status where
  | ok
  | invalidSeed
  | invalidTap
  | keystreamUnavailable
  | noRegister
  | invalidSteps
  | invalidOperand
  | noValue
  | illegalCommand
  deriving DecidableEq, Repr

/-- What a command answers, before it is laid out as a response frame (R71). -/
inductive Response where
  /-- A fault: the status byte and no payload (R71, R176). -/
  | raised (st : Status)
  /-- OK without payload: LOAD. -/
  | done
  /-- OK with a bit: SHIFT, RDLAST. -/
  | bit (b : Bit)
  /-- OK with a byte: SHIFTBYTE, XORBYTE. -/
  | byte (v : Byte)
  /-- OK with a string of symbols: GENKS, COMBINE, ENCRYPT, DECRYPT. -/
  | str (syms : List Symbol)
  /-- OK with a byte sequence: COMBINEB. -/
  | bytes (bs : List Byte)
  /-- OK with the state record: RDSTATE. -/
  | record (loaded : Bool) (L : Nat) (tap : Int) (lastValid : Bool) (last : Bit) (syms : List Symbol)
  deriving DecidableEq, Repr

/-- The architectural state record of the core (R20). -/
structure Register where
  /-- A Register exists (R25). -/
  loaded : Bool
  /-- The length of `bits` (R22). -/
  L : Nat
  /-- The shift register contents, index 0 the output end (R21). -/
  bits : List Bit
  /-- The feedback tap, counted from the right end, 1 the last bit (R23). -/
  tap : Int
  /-- The bit most recently fed in, or *no value* (R24). -/
  lastBit : Option Bit
  deriving DecidableEq, Repr

/-- The record after reset (R30, R200). The spec gives `L`, `bits` and `tap` no value there and says that no
command reads them; the fill values are a DESIGN CHOICE (log entry 7), unsafe only for a claim about the fields
themselves while nothing is loaded. `lastBit` is the spec's *no value*. -/
def Register.unloaded : Register := ⟨false, 0, [], 0, none⟩

/-- What reaches the core from outside between two commands: a command frame (R60, R61) or the reset event (R201). -/
inductive HostEvent where
  | command (f : Frame)
  | reset
  deriving DecidableEq, Repr

/-- The core's record, and the model's own fields: the bounds of the implementation, what the host has still
to send, and what it has got back. -/
structure State where
  /-- The one Register (R20; N_REG = 1, R5). -/
  reg : Register
  /-- LMAX and NMAX, a model argument (R5, D3); no step changes it. DESIGN CHOICE, log entry 4. -/
  limits : Limits
  /-- The events the host and the platform have still to deliver, oldest first (R26, R60, R201).
  DESIGN CHOICE, log entry 2. -/
  host : List HostEvent
  /-- The response frames returned so far, oldest first (R60, R61). DESIGN CHOICE, log entry 3. -/
  responses : List Frame
  deriving DecidableEq, Repr

/-- The machine right after reset: no Register (R200), no bound (log entry 4), a host that has sent nothing yet. -/
def State.reset : State := ⟨Register.unloaded, Limits.unbounded, [], []⟩

/-- Why a step stops. Neither reason is the spec's: its faults are answered statuses (R176, R177), next states here. -/
inductive Fault where
  /-- Raised by a stepping command when an element of `bits` that it reads does not exist, which R27 rules out.
  Safe: the model stops; no state that meets the invariant `State.Inv` raises it (log entry 8). -/
  | missingElement
  /-- Raised when a response does not fit its frame fields (a length of 2^32 or more, RDSTATE on a record that
  breaks R27). Safe: the model stops; no well-formed command on a state that meets `State.Inv` raises it
  (log entry 9). -/
  | unencodableResponse
  deriving DecidableEq, Repr

/-- Why the model gives an instruction no meaning. -/
inductive Refusal where
  /-- Raised by an arm of `exec` whose instruction has no meaning yet. Safe: the model stops. No arm does so now. -/
  | notModelled (mnemonic : String)
  deriving DecidableEq, Repr

/-- The outcome of a command or of a step. -/
abbrev Result := Host.Outcome State Fault Refusal

end Sys2Proof.Machine
end

