-- ==== Sys2Proof/Machine/Flags.lean ====
section
/-! DEFINITION. The one status flag, `lastBit` (R24), and the feedback bit that is written to it (R102). -/

namespace Sys2Proof.Machine

/-- The new bit of a step: `droppedBit XOR tapBit` (R102). -/
def feedback (dropped tapBit : Bit) : Bit := dropped ^^ tapBit

/-- `lastBit <- newBit` (R24, R102). -/
def Register.setLast (r : Register) (b : Bit) : Register := { r with lastBit := some b }

/-- RDSTATE's `lastValid`: 0 exactly when `lastBit` is *no value* (R108). -/
def Register.lastValid (r : Register) : Bool := r.lastBit.isSome

/-- RDSTATE's `last`: `lastBit`, and 0 when it is *no value* (R108). -/
def Register.lastOrZero (r : Register) : Bit := r.lastBit.getD false

end Sys2Proof.Machine
end

