-- ==== Sys2Proof/Machine/Operands.lean ====
section
/-! DEFINITION. Operand and result forms: symbols and bits (R8, R66), packed bytes (R42), left padding (R130),
and the layout of responses (R71). -/

namespace Sys2Proof.Machine

/-- `bit(c)`: 0 for '0', 1 for '1', nothing for a non-binary symbol (R8, R66). -/
def bitOf (c : Symbol) : Option Bit :=
  if c = sym0 then some false else if c = sym1 then some true else none

/-- `sym(b)` (R8, R66). -/
def symOf (b : Bit) : Symbol := if b then sym1 else sym0

/-- The bits of a bit-string, element 0 first (R43); `none` when some symbol is non-binary (R8). -/
def bitsOf : List Symbol → Option (List Bit)
  | [] => some []
  | c :: cs =>
    match bitOf c, bitsOf cs with
    | some b, some bs => some (b :: bs)
    | _, _ => none

/-- The characters of a sequence of bits (R8). -/
def symsOf (bs : List Bit) : List Symbol := bs.map symOf

/-- A bit returned on its own: a `u8` of value 0 or 1, no symbol (R66, R71). -/
def bitByte (b : Bit) : Byte := if b then 0x01#8 else 0x00#8

/-- `value = value*2 + newBit` over the bits in order, from 0 (R42, R104). -/
def packValue (bs : List Bit) : Nat := bs.foldl (fun value b => value * 2 + b.toNat) 0

/-- The byte of (at most eight) bits, the first of eight having weight 128 (R42, R104). -/
def packByte (bs : List Bit) : Byte := BitVec.ofNat 8 (packValue bs)

/-- `rep(zero, n - len(xs)) ++ xs` (R130, R135). -/
def leftPad {α : Type} (zero : α) (n : Nat) (xs : List α) : List α := List.replicate (n - xs.length) zero ++ xs

/-- Position-wise `op` of two sequences, the shorter padded on the left with `zero` to the longer's length
(R130, R135). -/
def combineWith {α : Type} (zero : α) (op : α → α → α) (a b : List α) : List α :=
  let n := max a.length b.length
  List.zipWith op (leftPad zero n a) (leftPad zero n b)

/-- COMBINE's result on bits (R130): '0' where the padded operands agree and '1' elsewhere. -/
def combineBits (a b : List Bit) : List Bit := combineWith false (fun x y => x ^^ y) a b

/-- COMBINEB's result (R135): byte XOR (R6) with left padding by 0x00. -/
def combineBytes (a b : List Byte) : List Byte := combineWith 0x00#8 (fun x y => x ^^^ y) a b

/-- The status byte (R170). -/
def Status.code : Status → Byte
  | .ok => 0x00#8
  | .invalidSeed => 0x01#8
  | .invalidTap => 0x02#8
  | .keystreamUnavailable => 0x03#8
  | .noRegister => 0x04#8
  | .invalidSteps => 0x05#8
  | .invalidOperand => 0x06#8
  | .noValue => 0x07#8
  | .illegalCommand => 0x08#8

/-- The response frame (R71); `none` when a length, `L` or `tap` does not fit its field, or when RDSTATE's bits
are not `L` many (log entry 9). -/
def Response.frame : Response → Option Frame
  | .raised st => some [st.code]
  | .done => some [Status.ok.code]
  | .bit b => some [Status.ok.code, bitByte b]
  | .byte v => some [Status.ok.code, v]
  | .str syms => if fitsU32 syms.length then some (Status.ok.code :: strBytes syms) else none
  | .bytes bs => if fitsU32 bs.length then some (Status.ok.code :: strBytes bs) else none
  | .record loaded L tap lastValid last syms =>
    if fitsU32 L && fitsI32 tap && decide (syms.length = L) then
      some (Status.ok.code :: bitByte loaded :: (u32Bytes L ++ i32Bytes tap ++
        (bitByte lastValid :: bitByte last :: syms)))
    else none

end Sys2Proof.Machine
end

