-- ==== Sys2Proof/Machine/Ops.lean ====
section
/-! DEFINITION. The named operations: reading the register, one step, chained steps, answering, raising a fault,
the reset event. -/

namespace Sys2Proof.Machine

/-- `bits[i]` (R10); `none` where there is no such element. -/
def Register.element (r : Register) (i : Int) : Option Bit := if i < 0 then none else r.bits[i.toNat]?

/-- `bits <- bits[1..] ++ [newBit]`, `lastBit <- newBit` (R102). -/
def Register.feed (r : Register) (newBit : Bit) : Register :=
  { r with bits := r.bits.drop 1 ++ [newBit] }.setLast newBit

/-- The body of `shift()` (R102): the new bit and the register after it; `droppedBit = bits[0]` and
`tapBit = bits[L - tap]` are read before the move. `none` where one of the two does not exist (log entry 8). -/
def Register.shift (r : Register) : Option (Bit × Register) :=
  match r.element 0, r.element (r.L - r.tap) with
  | some dropped, some tapBit => some (feedback dropped tapBit, r.feed (feedback dropped tapBit))
  | _, _ => none

/-- `n` chained steps and their new bits, the first step's first (R43, R120). -/
def Register.shifts : Nat → Register → Option (List Bit × Register)
  | 0, r => some ([], r)
  | n + 1, r =>
    match r.shift with
    | none => none
    | some (b, r1) =>
      match Register.shifts n r1 with
      | none => none
      | some (bs, r2) => some (b :: bs, r2)

/-- `shiftByte()` (R104): eight chained steps, their new bits packed most significant first. -/
def Register.shiftByte (r : Register) : Option (Byte × Register) :=
  match Register.shifts stepsPerByte r with
  | none => none
  | some (bs, r') => some (packByte bs, r')

/-- The Register that `new(seed, tap)` constructs (R100). -/
def Register.construct (bits : List Bit) (tap : Int) : Register :=
  { loaded := true, L := bits.length, bits := bits, tap := tap, lastBit := none }

/-- The command ends with this response (R60, R61): its frame is appended to what the host has got back. -/
def answer (resp : Response) (s : State) : Result :=
  match resp.frame with
  | some f => .next { s with responses := s.responses ++ [f] }
  | none => .fault .unencodableResponse

/-- `raise <Fault>` (R10, R176): the record stays as it was when the command began and the response is the one
status byte. There is nothing to return from (R177), so no operation stands beside it. -/
def raise (st : Status) (s : State) : Result := answer (.raised st) s

/-- `if not loaded: raise NoRegister` (R174), else go on. -/
def withRegister (s : State) (go : Result) : Result :=
  if s.reg.loaded then go else raise .noRegister s

/-- The end of a stepping command: the register after its steps, and the response made from their result. -/
def advance {α : Type} (stepped : Option (α × Register)) (reply : α → Response) (s : State) : Result :=
  match stepped with
  | some (v, r) => answer (reply v) { s with reg := r }
  | none => .fault .missingElement

/-- COMBINE's check and result on two symbol strings (R130, R136), shared by ENCRYPT and DECRYPT (R133, R134). -/
def combineStrings (a b : List Symbol) (s : State) : Result :=
  match bitsOf a, bitsOf b with
  | some x, some y => answer (.str (symsOf (combineBits x y))) s
  | _, _ => raise .invalidOperand s

/-- The check of the keystream operand that precedes `combine(text, k)` in ENCRYPT and DECRYPT (R133, R134). -/
def withKeystream (k : List Symbol) (s : State) (go : Result) : Result :=
  if k = [] then raise .keystreamUnavailable s else go

/-- RDSTATE's response (R108): filler zeros while nothing is loaded (C8). -/
def Register.report (r : Register) : Response :=
  if r.loaded then .record true r.L r.tap r.lastValid r.lastOrZero (symsOf r.bits)
  else .record false 0 0 false false []

/-- The reset event (R201): the record becomes that of R200, whatever it was. It is no command and has no
response; the host's side and the bounds stay (log entry 6). -/
def resetCore (s : State) : State := { s with reg := Register.unloaded }

end Sys2Proof.Machine
end

