-- ==== Sys2Proof/Machine/ByteCipher.lean ====
section
/-! DEFINITION. The byte cipher family: XORBYTE (43_byte_cipher.md). -/

namespace Sys2Proof.Machine

/-- XORBYTE (R150): SHIFTBYTE's steps, and `v XOR` its byte. -/
def execXorbyte (v : Byte) (s : State) : Result :=
  withRegister s (advance s.reg.shiftByte (fun value => .byte (v ^^^ value)) s)

end Sys2Proof.Machine
end

