-- ==== Sys2Proof/Machine/Keystream.lean ====
section
/-! DEFINITION. The KeystreamGenerator family: GENKS (41_keystream.md). -/

namespace Sys2Proof.Machine

/-- GENKS (R120): `NoRegister` before `InvalidSteps` (R180), then `steps` steps whose new bits are the string. -/
def execGenks (steps : Int) (s : State) : Result :=
  withRegister s
    (if steps < 0 then raise .invalidSteps s
     else advance (Register.shifts steps.toNat s.reg) (fun bs => .str (symsOf bs)) s)

end Sys2Proof.Machine
end

