-- ==== Sys2Proof/Machine/Register.lean ====
section
/-! DEFINITION. The Register family: LOAD, SHIFT, SHIFTBYTE, RDLAST, RDSTATE (40_register.md). -/

namespace Sys2Proof.Machine

/-- LOAD (R100): the seed's checks before the tap's (R101); a failed LOAD changes nothing. -/
def execLoad (seed : List Symbol) (tap : Int) (s : State) : Result :=
  if seed = [] then raise .invalidSeed s
  else
    match bitsOf seed with
    | none => raise .invalidSeed s
    | some bits =>
      if tap < 1 ∨ (seed.length : Int) < tap then raise .invalidTap s
      else answer .done { s with reg := Register.construct bits tap }

/-- SHIFT (R102). -/
def execShift (s : State) : Result := withRegister s (advance s.reg.shift .bit s)

/-- SHIFTBYTE (R104). -/
def execShiftbyte (s : State) : Result := withRegister s (advance s.reg.shiftByte .byte s)

/-- RDLAST (R107): `NoRegister` before `NoValue`; it does not advance the register. -/
def execRdlast (s : State) : Result :=
  withRegister s
    (match s.reg.lastBit with
     | none => raise .noValue s
     | some b => answer (.bit b) s)

/-- RDSTATE (R108): no fault of the spec, no change of state. -/
def execRdstate (s : State) : Result := answer s.reg.report s

end Sys2Proof.Machine
end

