-- ==== Sys2Proof/Machine/XorCombiner.lean ====
section
/-! DEFINITION. The XorCombiner family: COMBINE, ENCRYPT, DECRYPT, COMBINEB (42_xor_combiner.md). No command of it
reads or writes the Register. -/

namespace Sys2Proof.Machine

/-- COMBINE (R130). -/
def execCombine (a b : List Symbol) (s : State) : Result := combineStrings a b s

/-- ENCRYPT (R133): the empty-keystream check comes before the check of the symbols. -/
def execEncrypt (p k : List Symbol) (s : State) : Result := withKeystream k s (combineStrings p k s)

/-- DECRYPT (R134): what ENCRYPT computes, on the ciphertext. -/
def execDecrypt (c k : List Symbol) (s : State) : Result := withKeystream k s (combineStrings c k s)

/-- COMBINEB (R135): every byte value is a valid element. -/
def execCombineb (a b : List Byte) (s : State) : Result := answer (.bytes (combineBytes a b)) s

end Sys2Proof.Machine
end

