-- ==== Sys2Proof/Machine/Dispatch.lean ====
section
/-! DEFINITION. One arm per command of the opcode map (R67). -/

namespace Sys2Proof.Machine

def exec (i : Instr) (s : State) : Host.Outcome State Fault Refusal :=
  match i with
  | .load seed tap => Sys2Proof.Machine.execLoad seed tap s
  | .shift => Sys2Proof.Machine.execShift s
  | .shiftbyte => Sys2Proof.Machine.execShiftbyte s
  | .genks steps => Sys2Proof.Machine.execGenks steps s
  | .combine a b => Sys2Proof.Machine.execCombine a b s
  | .encrypt p k => Sys2Proof.Machine.execEncrypt p k s
  | .decrypt c k => Sys2Proof.Machine.execDecrypt c k s
  | .combineb a b => Sys2Proof.Machine.execCombineb a b s
  | .xorbyte v => Sys2Proof.Machine.execXorbyte v s
  | .rdlast => Sys2Proof.Machine.execRdlast s
  | .rdstate => Sys2Proof.Machine.execRdstate s

end Sys2Proof.Machine
end

