-- ==== Sys2Proof/Machine/Interface.lean ====
section
/-! DEFINITION. The command interface (R60): taking a frame, decoding it, answering one that selects no command. -/

namespace Sys2Proof.Machine

/-- A presented frame (R60, R61): the command it decodes to is executed; an illegal or malformed frame is
answered `IllegalCommand` and changes nothing (R68, R69, R179). -/
def acceptFrame (f : Frame) (s : State) : Result :=
  match decodeFrame s.limits f with
  | .ok i => exec i s
  | .error _ => raise .illegalCommand s

/-- A command that the host presents, without its frame (R60): one above LMAX or NMAX is refused before its own rule
is looked at (R69 case (c), R180). For a command that has a frame this is `acceptFrame` of that frame
(`Obligations.IssuedCommandIsItsFrame`). An operand that no frame field carries goes to the command's rule as it stands
(DEDUCED, log entry 17). -/
def acceptCommand (i : Instr) (s : State) : Result :=
  if i.withinLimits s.limits then exec i s else raise .illegalCommand s

/-- One event of the outside: a command frame, or the reset event between commands (R201). -/
def acceptEvent (e : HostEvent) (s : State) : Result :=
  match e with
  | .command f => acceptFrame f s
  | .reset => .next (resetCore s)

end Sys2Proof.Machine
end

