-- ==== Sys2Proof/Machine/Step.lean ====
section
/-! DEFINITION. One step of the machine: the next event of the host. -/

namespace Sys2Proof.Machine

/-- The oldest pending event is taken and carried out whole (R50, R60). With nothing pending the core waits and
nothing changes (R211; DEDUCED, log entry 5). -/
def step (s : State) : Host.Outcome State Fault Refusal :=
  match s.host with
  | [] => .next s
  | e :: rest => acceptEvent e { s with host := rest }

/-- The host presents the frame of a table row as its next command. -/
def State.withFetchWord (s : State) (nbits w : Nat) : State :=
  { s with host := .command (frameOfTableWord nbits w) :: s.host }

end Sys2Proof.Machine
end

