-- ==== Sys2Proof/Machine/Pseudo.lean ====
section
/-! DEFINITION. The pseudo-instructions (R74): sequences of commands that the host issues, and the image walk
PROCIMG (R152). None has an opcode. -/

namespace Sys2Proof.Machine

/-- A pixel: red, green, blue, and possibly an alpha channel (R154). -/
structure Pixel where
  r : Byte
  g : Byte
  b : Byte
  a : Option Byte
  deriving DecidableEq, Repr

/-- An image: its rows of pixels, row 0 first. R154's images are those whose rows all have one width; that rows of
unequal width are admitted, and walked row by row like others, is a DESIGN CHOICE (log entry 18): unsafe only for a
claim about such rows. -/
abbrev Image := List (List Pixel)

/-- The channel values of a pixel in their fixed order red, green, blue (R152). -/
def Pixel.channels (p : Pixel) : List Byte := [p.r, p.g, p.b]

/-- All channel values of an image in row-major order (R152). -/
def imageChannels (img : Image) : List Byte := img.flatten.flatMap Pixel.channels

/-- The commands of `PROCIMG pixels, seed, tap` (R74, R152), as many as are issued when none faults; `procImg` is the
run. -/
def procImgCommands (img : Image) (seed : List Symbol) (tap : Int) : List Instr :=
  .load seed tap :: (imageChannels img).map .xorbyte

/-- `ENCRYPTIMAGE` has PROCIMG's expansion (R74); `encryptImage` is the run. -/
def encryptImageCommands (img : Image) (seed : List Symbol) (tap : Int) : List Instr := procImgCommands img seed tap

/-- `DECRYPTIMAGE` has PROCIMG's expansion (R74); `decryptImage` is the run. -/
def decryptImageCommands (img : Image) (seed : List Symbol) (tap : Int) : List Instr := procImgCommands img seed tap

/-- `GENERATEKEYSTREAM seed, tap, steps` (R74); `generateKeystream` is the run, which stops on the LOAD's fault. -/
def generateKeystreamCommands (seed : List Symbol) (tap steps : Int) : List Instr := [.load seed tap, .genks steps]

/-- The host issues one command, which is refused above LMAX or NMAX (R69), and reads its response. `none` only where
the model stops. -/
def issue (i : Instr) (s : State) : Option (Frame × State) :=
  match acceptCommand i s with
  | .next s' =>
    match s'.responses.getLast? with
    | some f => some (f, s')
    | none => none
  | _ => none

/-- A list of commands issued in order, each to completion before the next (R50), with their responses. All
are issued whatever the responses are; a run that depends on its LOAD is `afterLoad`. -/
def issueAll : List Instr → State → Option (List Frame × State)
  | [], s => some ([], s)
  | i :: is, s =>
    match issue i s with
    | none => none
    | some (f, s1) =>
      match issueAll is s1 with
      | none => none
      | some (fs, s2) => some (f :: fs, s2)

/-- The result byte of an XORBYTE response `00 newV` (R71). -/
def resultByte : Frame → Option Byte
  | [st, v] => if st = Status.ok.code then some v else none
  | _ => none

/-- `out.c = result of XORBYTE in.c` (R152). -/
def walkChannel (v : Byte) (s : State) : Option (Byte × State) :=
  match issue (.xorbyte v) s with
  | none => none
  | some (f, s') =>
    match resultByte f with
    | some v' => some (v', s')
    | none => none

/-- One pixel: red, green, blue in that order; alpha is copied and issues no command (R152). -/
def walkPixel (p : Pixel) (s : State) : Option (Pixel × State) :=
  match walkChannel p.r s with
  | none => none
  | some (r, s1) =>
    match walkChannel p.g s1 with
    | none => none
    | some (g, s2) =>
      match walkChannel p.b s2 with
      | none => none
      | some (b, s3) => some (⟨r, g, b, p.a⟩, s3)

/-- One row, column 0 first (R152). -/
def walkRow : List Pixel → State → Option (List Pixel × State)
  | [], s => some ([], s)
  | p :: ps, s =>
    match walkPixel p s with
    | none => none
    | some (q, s1) =>
      match walkRow ps s1 with
      | none => none
      | some (qs, s2) => some (q :: qs, s2)

/-- All rows, row 0 first (R152). -/
def walkImage : Image → State → Option (Image × State)
  | [], s => some ([], s)
  | row :: rows, s =>
    match walkRow row s with
    | none => none
    | some (q, s1) =>
      match walkImage rows s1 with
      | none => none
      | some (qs, s2) => some (q :: qs, s2)

/-- How a pseudo-instruction ends. -/
inductive PseudoResult (α : Type) where
  /-- Every command it issued was answered OK: its value and the state after it. -/
  | done (value : α) (s : State)
  /-- A command was answered with a fault: that response, no value, and no command after it (R152, R171). -/
  | failed (response : Frame) (s : State)
  /-- The model stopped inside a command (log entries 8, 9); never from a state that meets the invariant. -/
  | stopped
  deriving DecidableEq, Repr

/-- A run that begins with a LOAD (R74): its fault is fatal to the run, which issues nothing more (R171, R172;
`IllegalCommand` for a seed above LMAX, R100); else the run goes on from the constructed Register. -/
def afterLoad {α : Type} (seed : List Symbol) (tap : Int) (s : State) (go : State → PseudoResult α) : PseudoResult α :=
  match issue (.load seed tap) s with
  | none => .stopped
  | some (f, s1) => if f = [Status.ok.code] then go s1 else .failed f s1

/-- PROCIMG (R152): LOAD, stop on its fault, else walk the image. -/
def procImg (img : Image) (seed : List Symbol) (tap : Int) (s : State) : PseudoResult Image :=
  afterLoad seed tap s fun s1 =>
    match walkImage img s1 with
    | some (out, s2) => .done out s2
    | none => .stopped

/-- ENCRYPTIMAGE is PROCIMG (R74). -/
def encryptImage (img : Image) (seed : List Symbol) (tap : Int) (s : State) : PseudoResult Image :=
  procImg img seed tap s

/-- DECRYPTIMAGE is PROCIMG (R74, R153). -/
def decryptImage (img : Image) (seed : List Symbol) (tap : Int) (s : State) : PseudoResult Image :=
  procImg img seed tap s

/-- The string of a GENKS response `00 ks:str` (R71). -/
def resultString : Frame → Option (List Symbol)
  | st :: _ :: _ :: _ :: _ :: syms => if st = Status.ok.code then some syms else none
  | _ => none

/-- GENERATEKEYSTREAM (R74, R120): LOAD, stop on its fault, else GENKS, whose string or fault is the end. -/
def generateKeystream (seed : List Symbol) (tap steps : Int) (s : State) : PseudoResult (List Symbol) :=
  afterLoad seed tap s fun s1 =>
    match issue (.genks steps) s1 with
    | none => .stopped
    | some (f, s2) =>
      match resultString f with
      | some ks => .done ks s2
      | none => .failed f s2

end Sys2Proof.Machine
end

