-- ==== Sys2Proof/Safety.lean ====
section
/-! DEFINITION. The terms of the claims: the register invariant of R27, legal responses (R71, R170), the next state
of an answered command, and the spec's own words about strings. -/

namespace Sys2Proof.Machine

/-- R27 for a loaded Register, with the field ranges of the frames that loaded it (R62): the length of `bits` is
`L`, `L` is at least 1, `tap` lies in [1, L], and a `lastBit` with a value is `bits[L-1]` (R24). -/
def Register.Sound (r : Register) : Prop :=
  r.loaded = true →
    r.bits.length = r.L ∧ 1 ≤ r.L ∧ r.L < 2 ^ 32 ∧ 1 ≤ r.tap ∧ r.tap ≤ r.L ∧ r.tap < 2 ^ 31 ∧
      (r.lastBit = none ∨ r.lastBit = r.bits.getLast?)

/-- A response frame of R71 whose status R170 lists: a status byte 0x00 to 0x08, and nothing after it unless OK. -/
def legalResponse (f : Frame) : Bool :=
  match f with
  | [] => false
  | st :: payload => decide (st.toNat ≤ 8) && (st == 0x00#8 || payload.isEmpty)

/-- The invariant of the machine: a sound record, and only legal responses returned. -/
def State.Inv (s : State) : Prop := s.reg.Sound ∧ s.responses.all legalResponse = true

/-- `s` after a command that left the record `r` and was answered with the response frame `f`; everything else of
`s` is as it was. -/
def State.answered (s : State) (r : Register) (f : Frame) : State :=
  { s with reg := r, responses := s.responses ++ [f] }

/-- `s` with the record `r`, and everything else as it was. -/
def State.withReg (s : State) (r : Register) : State := { s with reg := r }

/-- `r` with `lastBit` replaced. -/
def Register.withLast (r : Register) (l : Option Bit) : Register := { r with lastBit := l }

/-- The command was answered with a fault (R71, R170): the status byte is not OK. -/
def isFaultFrame (f : Frame) : Bool := f.head? != some 0x00#8

/-- Every symbol is the character '0' or the character '1' (R8). -/
def BitString (xs : List Symbol) : Prop := ∀ c ∈ xs, c = sym0 ∨ c = sym1

/-- The operands that LOAD accepts (R100). -/
def LoadAccepted (seed : List Symbol) (tap : Int) : Prop :=
  seed ≠ [] ∧ BitString seed ∧ 1 ≤ tap ∧ tap ≤ seed.length

/-- The implementation's LMAX admits the seed (R5, R69 case (c)). -/
def AdmitsSeed (s : State) (seed : List Symbol) : Prop := ∀ m : Nat, s.limits.lmax = some m → seed.length ≤ m

/-- The implementation's NMAX admits a string length or a count of steps (R5, R69 case (c)). -/
def AdmitsLength (s : State) (n : Nat) : Prop := ∀ m : Nat, s.limits.nmax = some m → n ≤ m

/-- Element `j` of a sequence padded on the left with `zero` to the length `n` (R130). -/
def paddedAt {α : Type} (zero : α) (n : Nat) (xs : List α) (j : Nat) : Option α :=
  if j < n - xs.length then some zero else xs[j - (n - xs.length)]?

/-- The per-position rule of R130: '0' if the two characters are equal, else '1'. -/
def xorSym (c d : Symbol) : Symbol := if c = d then sym0 else sym1

/-- The eight bits of a byte, most significant first (R42). -/
def byteBits (v : Byte) : List Bit := (List.range 8).map (fun k => v.getLsbD (7 - k))

/-- The commands that run at least one step on a loaded Register (R32). -/
def stepsRegister : Instr → Bool
  | .shift | .shiftbyte | .xorbyte _ => true
  | .genks steps => decide (1 ≤ steps)
  | _ => false

/-- The commands that R48 says have no side effect on the record. -/
def isPure : Instr → Bool
  | .combine _ _ | .encrypt _ _ | .decrypt _ _ | .combineb _ _ | .rdlast | .rdstate => true
  | .genks steps => decide (steps = 0)
  | _ => false

/-- LOAD is the one command that writes `loaded`, `L` and `tap` (R32). -/
def isLoad : Instr → Bool
  | .load _ _ => true
  | _ => false

/-- The commands that read `lastBit` (R24). -/
def readsLast : Instr → Bool
  | .rdlast | .rdstate => true
  | _ => false

/-- `bs` is a `u32` field of value `n`: four bytes, the first of weight 2^24 (R62).
PRESUMED (the spec's G2; log entry 11), as `IsI32`: unsafe for a core that reads the fields otherwise. -/
def IsU32 (n : Nat) (bs : List Byte) : Prop :=
  ∃ b0 b1 b2 b3 : Byte, bs = [b0, b1, b2, b3] ∧
    n = b0.toNat * 16777216 + b1.toNat * 65536 + b2.toNat * 256 + b3.toNat

/-- `bs` is an `i32` field of value `v`: the `u32` value, minus 2^32 when bit 7 of the first byte is 1 (R62). -/
def IsI32 (v : Int) (bs : List Byte) : Prop :=
  ∃ b0 b1 b2 b3 : Byte, bs = [b0, b1, b2, b3] ∧
    v = (b0.toNat * 16777216 + b1.toNat * 65536 + b2.toNat * 256 + b3.toNat : Nat) -
      (if b0.getLsbD 7 then 4294967296 else 0 : Int)

/-- `f` is `op:u8`, `a`, `b`, each sequence after its `u32` length: format `SS` (R63). -/
def LaidOutSS (op : Byte) (a b : List Byte) (f : Frame) : Prop :=
  ∃ la lb : List Byte, IsU32 a.length la ∧ IsU32 b.length lb ∧ f = op :: (la ++ a ++ lb ++ b)

/-- `f` is laid out as the spec lays out the frame of the command: the opcode (R67) and the fields of its format in
their order (R63). -/
def LaidOut (i : Instr) (f : Frame) : Prop :=
  match i with
  | .load seed tap =>
    ∃ len imm : List Byte, IsU32 seed.length len ∧ IsI32 tap imm ∧ f = 0x01#8 :: (len ++ seed ++ imm)
  | .shift => f = [0x02#8]
  | .shiftbyte => f = [0x03#8]
  | .genks steps => ∃ imm : List Byte, IsI32 steps imm ∧ f = 0x04#8 :: imm
  | .combine a b => LaidOutSS 0x05#8 a b f
  | .encrypt p k => LaidOutSS 0x06#8 p k f
  | .decrypt c k => LaidOutSS 0x07#8 c k f
  | .combineb a b => LaidOutSS 0x08#8 a b f
  | .xorbyte v => f = [0x09#8, v]
  | .rdlast => f = [0x0A#8]
  | .rdstate => f = [0x0B#8]

end Sys2Proof.Machine
end

