-- ==== Sys2Proof/Certificates/Slice0/Obligations.lean ====
section
/-! DEFINITION. The statements for the provers. An operand length below 2^32 is what a frame's `u32` field can
carry (R62); `State.Inv` is the invariant of R27 that every step keeps. `s.answered r f` says the whole frame of a
command: the record is `r`, the response `f` is appended, and the bounds, the host's pending events and the earlier
responses are as before. Opcode numbers, frame layouts, status numbers and symbol codes are the spec's decisions D4,
D13, D14, D15; the list of responses and the host's list of events are the model's own fields (log entries 3 and 2). -/

open Sys2Proof Sys2Proof.Machine

/-! ### The Register family -/

/-- 40_register.md section 1 (LOAD, Operation): an accepted seed and tap construct the Register, whatever was loaded
before; the response is OK alone. `lastBit` after LOAD is the spec's decision D7, the response bytes D13, D15. -/
def Obligations.LoadConstructsRegister : Prop :=
  ∀ (seed : List Symbol) (tap : Int) (s : State), LoadAccepted seed tap →
    ∃ r : Register, exec (.load seed tap) s = .next (s.answered r [0x00#8]) ∧
      r.loaded = true ∧ r.L = seed.length ∧ r.tap = tap ∧ r.lastBit = none ∧ r.bits.length = seed.length ∧
      ∀ i : Nat, i < seed.length →
        (seed[i]? = some sym0 → r.bits[i]? = some false) ∧ (seed[i]? = some sym1 → r.bits[i]? = some true)

/-- R171: `InvalidSeed` is raised exactly by a LOAD whose seed is empty or has a non-binary symbol (whatever the tap,
R101), the record stays, the core goes on; a run that begins with a LOAD (PROCIMG, ENCRYPTIMAGE, DECRYPTIMAGE,
GENERATEKEYSTREAM) fails with it, issues nothing more and has no output, whatever was loaded before. A seed
above LMAX is refused before that, as an illegal command (`ProcImgRefusesOversizeSeed`). -/
def Obligations.InvalidSeedExactlyOnBadSeed : Prop :=
  (∀ (i : Instr) (s : State),
    exec i s = .next (s.answered s.reg [Status.invalidSeed.code]) ↔
      ∃ seed tap, i = .load seed tap ∧ (seed = [] ∨ ∃ c ∈ seed, c ≠ sym0 ∧ c ≠ sym1)) ∧
  ∀ (seed : List Symbol) (tap n : Int) (img : Image) (s : State), AdmitsSeed s seed →
    (seed = [] ∨ ∃ c ∈ seed, c ≠ sym0 ∧ c ≠ sym1) →
    procImg img seed tap s = .failed [Status.invalidSeed.code] (s.answered s.reg [Status.invalidSeed.code]) ∧
    encryptImage img seed tap s = .failed [Status.invalidSeed.code] (s.answered s.reg [Status.invalidSeed.code]) ∧
    decryptImage img seed tap s = .failed [Status.invalidSeed.code] (s.answered s.reg [Status.invalidSeed.code]) ∧
    generateKeystream seed tap n s = .failed [Status.invalidSeed.code] (s.answered s.reg [Status.invalidSeed.code])

/-- R172: `InvalidTap` is raised exactly by a LOAD whose seed passed its own check and whose tap is outside
[1, length(seed)]; `tap = length(seed)` does not raise it. The same treatment as R171's: the record stays, the core goes
on, and PROCIMG, ENCRYPTIMAGE, DECRYPTIMAGE and GENERATEKEYSTREAM, which begin with a LOAD, fail with it before any pixel
or step and have no output. -/
def Obligations.InvalidTapExactlyOutsideRange : Prop :=
  (∀ (i : Instr) (s : State),
    exec i s = .next (s.answered s.reg [Status.invalidTap.code]) ↔
      ∃ seed tap, i = .load seed tap ∧ seed ≠ [] ∧ BitString seed ∧ (tap < 1 ∨ (seed.length : Int) < tap)) ∧
  ∀ (img : Image) (seed : List Symbol) (tap n : Int) (s : State), AdmitsSeed s seed →
    seed ≠ [] → BitString seed → (tap < 1 ∨ (seed.length : Int) < tap) →
    procImg img seed tap s = .failed [Status.invalidTap.code] (s.answered s.reg [Status.invalidTap.code]) ∧
    encryptImage img seed tap s = .failed [Status.invalidTap.code] (s.answered s.reg [Status.invalidTap.code]) ∧
    decryptImage img seed tap s = .failed [Status.invalidTap.code] (s.answered s.reg [Status.invalidTap.code]) ∧
    generateKeystream seed tap n s = .failed [Status.invalidTap.code] (s.answered s.reg [Status.invalidTap.code])

/-- 40_register.md section 2 (SHIFT, Operation), element by element: every element moves one index down, the XOR of
`bits[0]` and `bits[L - tap]` enters at index L-1, is written to `lastBit` and is the result. -/
def Obligations.ShiftMovesAndFeeds : Prop :=
  ∀ s : State, s.reg.Sound → s.reg.loaded = true →
    ∃ (dropped tapBit : Bit) (r : Register),
      s.reg.bits[0]? = some dropped ∧ s.reg.bits[s.reg.L - s.reg.tap.toNat]? = some tapBit ∧
      exec .shift s = .next (s.answered r [0x00#8, bitByte (dropped ^^ tapBit)]) ∧
      r.loaded = true ∧ r.L = s.reg.L ∧ r.tap = s.reg.tap ∧ r.lastBit = some (dropped ^^ tapBit) ∧
      r.bits.length = s.reg.L ∧ (∀ i : Nat, i + 1 < s.reg.L → r.bits[i]? = s.reg.bits[i + 1]?) ∧
      r.bits[s.reg.L - 1]? = some (dropped ^^ tapBit)

/-- 40_register.md section 3 (SHIFTBYTE): the record is left exactly as eight SHIFT commands leave it, and the result
is the packing of their eight results, the first with weight 128. -/
def Obligations.ShiftbyteIsEightShifts : Prop :=
  ∀ s : State, s.reg.Sound → s.reg.loaded = true →
    ∃ (b0 b1 b2 b3 b4 b5 b6 b7 : Bit) (t : State),
      issueAll (List.replicate 8 .shift) s =
        some ([b0, b1, b2, b3, b4, b5, b6, b7].map (fun b => [0x00#8, bitByte b]), t) ∧
      exec .shiftbyte s = .next (s.answered t.reg [0x00#8, BitVec.ofNat 8 (128 * b0.toNat + 64 * b1.toNat +
        32 * b2.toNat + 16 * b3.toNat + 8 * b4.toNat + 4 * b5.toNat + 2 * b6.toNat + b7.toNat)])

/-- 43_byte_cipher.md section 1 (XORBYTE): the record is left as SHIFTBYTE leaves it and the result is `v XOR` what
SHIFTBYTE would have returned. -/
def Obligations.XorbyteMasksWithShiftbyte : Prop :=
  ∀ (v : Byte) (s : State), s.reg.Sound → s.reg.loaded = true →
    ∃ (k : Byte) (r : Register),
      exec .shiftbyte s = .next (s.answered r [0x00#8, k]) ∧
      exec (.xorbyte v) s = .next (s.answered r [0x00#8, v ^^^ k])

/-- 40_register.md section 5 (RDLAST): with a value it returns `lastBit` and changes nothing; without one it raises
`NoValue` (the command and the fault are the spec's decisions D7, D22). -/
def Obligations.RdlastReturnsLastBit : Prop :=
  ∀ s : State, s.reg.loaded = true →
    (∀ b, s.reg.lastBit = some b → exec .rdlast s = .next (s.answered s.reg [0x00#8, bitByte b])) ∧
    (s.reg.lastBit = none → exec .rdlast s = .next (s.answered s.reg [0x07#8]))

/-- 40_register.md section 5 (RDSTATE, the spec's decision D22): it never faults and changes nothing; the payload is
the record, or filler zeros while nothing is loaded (C8). -/
def Obligations.RdstateReportsRecord : Prop :=
  ∀ s : State, s.reg.Sound →
    (s.reg.loaded = true → exec .rdstate s = .next (s.answered s.reg
      ([0x00#8, 0x01#8] ++ u32Bytes s.reg.L ++ i32Bytes s.reg.tap ++
        (match s.reg.lastBit with
         | none => [0x00#8, 0x00#8]
         | some false => [0x01#8, 0x00#8]
         | some true => [0x01#8, 0x01#8]) ++
        s.reg.bits.map symOf))) ∧
    (s.reg.loaded = false → exec .rdstate s = .next (s.answered s.reg (List.replicate 12 0x00#8)))

/-- 60_exceptions.md section 1 (NoRegister, the spec's decision D20): while nothing is loaded the stepping commands
and RDLAST raise `NoRegister`, GENKS also on a negative `steps` (section 3, priority). -/
def Obligations.NoRegisterBeforeLoad : Prop :=
  ∀ (i : Instr) (s : State), s.reg.loaded = false →
    (i = .shift ∨ i = .shiftbyte ∨ (∃ n, i = .genks n) ∨ (∃ v, i = .xorbyte v) ∨ i = .rdlast) →
    exec i s = .next (s.answered s.reg [0x04#8])

/-! ### The register over many steps -/

/-- 40_register.md section 2 (the recurrence, which the spec marks as derived) with 41_keystream.md section 1: let `σ`
extend the register's contents by `σ[L+j] = σ[j] XOR σ[j + L - tap]`. GENKS `n` answers `σ[L]` to `σ[L+n-1]` and
leaves `σ[n]` to `σ[n+L-1]`. -/
def Obligations.GenksFollowsRecurrence : Prop :=
  ∀ (s : State) (n : Nat) (σ : Nat → Bit), s.reg.Sound → s.reg.loaded = true → n < 2 ^ 31 →
    (∀ i : Nat, i < s.reg.L → s.reg.bits[i]? = some (σ i)) →
    (∀ j : Nat, σ (s.reg.L + j) = (σ j ^^ σ (j + s.reg.L - s.reg.tap.toNat))) →
    ∃ r : Register,
      exec (.genks n) s = .next (s.answered r
        (0x00#8 :: (u32Bytes n ++ (List.range n).map (fun j => symOf (σ (s.reg.L + j)))))) ∧
      r.bits = (List.range s.reg.L).map (fun i => σ (n + i)) ∧
      r.loaded = true ∧ r.L = s.reg.L ∧ r.tap = s.reg.tap ∧
      r.lastBit = if n = 0 then s.reg.lastBit else some (σ (s.reg.L + n - 1))

/-- 41_keystream.md section 1 (GENKS): the record after GENKS `n` is that after `n` SHIFT commands, and the result is
their `n` results as characters in order; GENKS 0 answers the empty string and changes nothing. -/
def Obligations.GenksIsRepeatedShift : Prop :=
  ∀ (s : State) (n : Nat), s.reg.Sound → s.reg.loaded = true → n < 2 ^ 31 →
    ∃ (bs : List Bit) (t : State), bs.length = n ∧
      issueAll (List.replicate n .shift) s = some (bs.map (fun b => [0x00#8, bitByte b]), t) ∧
      exec (.genks n) s = .next (s.answered t.reg (0x00#8 :: (u32Bytes n ++ bs.map symOf)))

/-- 60_exceptions.md section 1 (InvalidSteps, the spec's decision D23): a negative `steps` on a loaded Register is
refused; no step is run. -/
def Obligations.GenksRefusesNegativeSteps : Prop :=
  ∀ (s : State) (n : Int), s.reg.loaded = true → n < 0 → exec (.genks n) s = .next (s.answered s.reg [0x05#8])

/-- 41_keystream.md section 1 (GENKS continues; the split is marked as derived in the spec): GENKS `m` then GENKS `n`
return between them the bits of one GENKS `m+n`, in order, and leave the same record. -/
def Obligations.GenksContinues : Prop :=
  ∀ (s : State) (m n : Nat), s.reg.Sound → s.reg.loaded = true → m + n < 2 ^ 31 →
    ∃ (a b : List Symbol) (r1 r2 : Register), a.length = m ∧ b.length = n ∧
      exec (.genks m) s = .next (s.answered r1 (0x00#8 :: (u32Bytes m ++ a))) ∧
      (∀ t : State, t.reg = r1 → exec (.genks n) t = .next (t.answered r2 (0x00#8 :: (u32Bytes n ++ b)))) ∧
      exec (.genks ((m + n : Nat) : Int)) s = .next (s.answered r2 (0x00#8 :: (u32Bytes (m + n) ++ (a ++ b))))

/-- 43_byte_cipher.md section 1 (its last sentence is marked as derived in the spec): byte commands consume the
keystream strictly in sequence: `m` SHIFTBYTE commands return the bytes of the string that GENKS `8m` returns, and
leave the same record. -/
def Obligations.ByteCommandsConsumeKeystream : Prop :=
  ∀ (s : State) (m : Nat), s.reg.Sound → s.reg.loaded = true → 8 * m < 2 ^ 31 →
    ∃ (vs : List Byte) (t : State), vs.length = m ∧
      issueAll (List.replicate m .shiftbyte) s = some (vs.map (fun v => [0x00#8, v]), t) ∧
      exec (.genks ((8 * m : Nat) : Int)) s =
        .next (s.answered t.reg (0x00#8 :: (u32Bytes (8 * m) ++ (vs.flatMap byteBits).map symOf)))

/-- 40_register.md section 4 (tap = L, the spec's decision D21): every emitted bit is 0 and zeros enter on the right;
after `L` steps or more the register is all zeros. -/
def Obligations.TapAtLengthEmitsZeros : Prop :=
  ∀ (s : State) (n : Nat), s.reg.Sound → s.reg.loaded = true → s.reg.tap = s.reg.L → n < 2 ^ 31 →
    ∃ r : Register,
      exec (.genks n) s = .next (s.answered r (0x00#8 :: (u32Bytes n ++ List.replicate n sym0))) ∧
      r.bits = s.reg.bits.drop n ++ List.replicate (min n s.reg.L) false ∧
      r.loaded = true ∧ r.L = s.reg.L ∧ r.tap = s.reg.tap

/-- 40_register.md section 4 (b), marked as derived in the spec: an all-zero register stays all zeros and its
keystream is all '0', for any tap. -/
def Obligations.ZeroRegisterStaysZero : Prop :=
  ∀ (s : State) (n : Nat), s.reg.Sound → s.reg.loaded = true → (∀ b ∈ s.reg.bits, b = false) → n < 2 ^ 31 →
    ∃ r : Register,
      exec (.genks n) s = .next (s.answered r (0x00#8 :: (u32Bytes n ++ List.replicate n sym0))) ∧
      r.bits = s.reg.bits ∧ r.loaded = true ∧ r.L = s.reg.L ∧ r.tap = s.reg.tap

/-- 41_keystream.md section 1 (determinism): GENERATEKEYSTREAM with the same seed, tap and steps, within the bounds,
gives the same responses and the same record from any two states. -/
def Obligations.KeystreamDeterminedBySeed : Prop :=
  ∀ (seed : List Symbol) (tap : Int) (n : Nat) (s1 s2 : State),
    LoadAccepted seed tap → seed.length < 2 ^ 32 → tap < 2 ^ 31 → n < 2 ^ 31 →
    AdmitsSeed s1 seed → AdmitsLength s1 n → AdmitsSeed s2 seed → AdmitsLength s2 n →
    ∃ (ks : List Symbol) (t1 t2 : State), ks.length = n ∧ BitString ks ∧
      generateKeystream seed tap n s1 = .done ks t1 ∧ generateKeystream seed tap n s2 = .done ks t2 ∧
      issueAll (generateKeystreamCommands seed tap n) s1 = some ([[0x00#8], 0x00#8 :: (u32Bytes n ++ ks)], t1) ∧
      issueAll (generateKeystreamCommands seed tap n) s2 = some ([[0x00#8], 0x00#8 :: (u32Bytes n ++ ks)], t2) ∧
      t1.reg = t2.reg

/-! ### The XorCombiner family -/

/-- 42_xor_combiner.md section 1 (COMBINE): on bit-strings the result has the longer operand's length and at every
position the per-position rule of the operands padded on the left with '0'; the record is untouched. -/
def Obligations.CombineXorsPaddedStrings : Prop :=
  ∀ (a b : List Symbol) (s : State), BitString a → BitString b → a.length < 2 ^ 32 → b.length < 2 ^ 32 →
    ∃ r : List Symbol, r.length = max a.length b.length ∧
      exec (.combine a b) s = .next (s.answered s.reg (0x00#8 :: (u32Bytes r.length ++ r))) ∧
      ∀ j : Nat, j < r.length → ∃ c d, paddedAt sym0 r.length a j = some c ∧ paddedAt sym0 r.length b j = some d ∧
        r[j]? = some (xorSym c d)

/-- R206: when the keystream is longer its character `j` meets the text's character `j - (len(k) - len(p))`, and its
leading characters meet padding; when it is shorter the leading characters of the text are not masked. So for COMBINE
as for ENCRYPT and DECRYPT. -/
def Obligations.PaddingAlignsLastCharacters : Prop :=
  ∀ (i : Instr) (p k : List Symbol) (s : State), BitString p → BitString k → p.length < 2 ^ 32 → k.length < 2 ^ 32 →
    (i = .combine p k ∨ (k ≠ [] ∧ (i = .encrypt p k ∨ i = .decrypt p k))) →
    ∃ r : List Symbol, r.length = max p.length k.length ∧
      exec i s = .next (s.answered s.reg (0x00#8 :: (u32Bytes r.length ++ r))) ∧
      (∀ j : Nat, p.length ≤ k.length → j < k.length - p.length → r[j]? = k[j]?) ∧
      (∀ j : Nat, p.length ≤ k.length → k.length - p.length ≤ j → j < k.length →
        ∃ c d, k[j]? = some c ∧ p[j - (k.length - p.length)]? = some d ∧ r[j]? = some (xorSym d c)) ∧
      (∀ j : Nat, k.length < p.length → j < p.length - k.length → r[j]? = p[j]?) ∧
      (∀ j : Nat, k.length < p.length → p.length - k.length ≤ j → j < p.length →
        ∃ c d, p[j]? = some c ∧ k[j - (p.length - k.length)]? = some d ∧ r[j]? = some (xorSym c d))

/-- 42_xor_combiner.md sections 1 and 2 (InvalidOperand, the spec's decision D24): a non-binary symbol in either
operand is refused before anything is computed; in ENCRYPT and DECRYPT after the keystream check. -/
def Obligations.NonBinaryOperandRefused : Prop :=
  ∀ (a b : List Symbol) (s : State), (∃ c ∈ a ++ b, c ≠ sym0 ∧ c ≠ sym1) →
    exec (.combine a b) s = .next (s.answered s.reg [0x06#8]) ∧
    (b ≠ [] → exec (.encrypt a b) s = .next (s.answered s.reg [0x06#8]) ∧
      exec (.decrypt a b) s = .next (s.answered s.reg [0x06#8]))

/-- R173: `KeystreamUnavailable` is raised exactly by ENCRYPT and DECRYPT with an empty operand `b`, whatever the
record and the other operand; `COMBINE a, ""` on a bit-string returns `a`. -/
def Obligations.EmptyKeystreamRejected : Prop :=
  (∀ (i : Instr) (s : State),
    exec i s = .next (s.answered s.reg [Status.keystreamUnavailable.code]) ↔
      ∃ p, i = .encrypt p [] ∨ i = .decrypt p []) ∧
  ∀ (a : List Symbol) (s : State), BitString a → a.length < 2 ^ 32 →
    exec (.combine a []) s = .next (s.answered s.reg (0x00#8 :: (u32Bytes a.length ++ a)))

/-- 42_xor_combiner.md section 1 (the corrected round trip, C3, which the spec marks as derived): DECRYPT of ENCRYPT's
result with the same keystream returns the plaintext with `max(0, len(k) - len(p))` leading '0' characters. -/
def Obligations.DecryptUndoesEncrypt : Prop :=
  ∀ (p k : List Symbol) (s : State), BitString p → BitString k → k ≠ [] → p.length < 2 ^ 32 → k.length < 2 ^ 32 →
    ∃ c : List Symbol,
      exec (.encrypt p k) s = .next (s.answered s.reg (0x00#8 :: strBytes c)) ∧
      ∀ t : State, exec (.decrypt c k) t =
        .next (t.answered t.reg (0x00#8 :: strBytes (List.replicate (k.length - p.length) sym0 ++ p)))

/-- 70_reset_and_hazards.md section 2 (the text cipher in host steps): sender and receiver each LOAD the same seed and
tap and GENKS as many steps as the plaintext has characters; they get the same keystream, and DECRYPT gives the
plaintext back exactly, whatever state either began in. -/
def Obligations.TextCipherRoundTrip : Prop :=
  ∀ (seed : List Symbol) (tap : Int) (p : List Symbol) (s1 s2 : State),
    LoadAccepted seed tap → seed.length < 2 ^ 32 → tap < 2 ^ 31 → BitString p → p ≠ [] → p.length < 2 ^ 31 →
    AdmitsSeed s1 seed → AdmitsLength s1 p.length → AdmitsSeed s2 seed → AdmitsLength s2 p.length →
    ∃ (ks c : List Symbol) (t1 t2 : State),
      issueAll [.load seed tap, .genks p.length, .encrypt p ks] s1 =
        some ([[0x00#8], 0x00#8 :: strBytes ks, 0x00#8 :: strBytes c], t1) ∧
      issueAll [.load seed tap, .genks p.length, .decrypt c ks] s2 =
        some ([[0x00#8], 0x00#8 :: strBytes ks, 0x00#8 :: strBytes p], t2)

/-- 42_xor_combiner.md section 1 (b), (c), (d), marked as derived in the spec: COMBINE is commutative on all operands;
a string of `m` '0' characters returns the other operand padded; a bit-string with itself gives '0' characters. -/
def Obligations.CombineAlgebra : Prop :=
  ∀ (a b : List Symbol) (m : Nat) (s : State),
    exec (.combine a b) s = exec (.combine b a) s ∧
    (BitString a → a.length < 2 ^ 32 → m < 2 ^ 32 →
      exec (.combine a (List.replicate m sym0)) s = .next (s.answered s.reg
        (0x00#8 :: strBytes (List.replicate (m - a.length) sym0 ++ a))) ∧
      exec (.combine a a) s = .next (s.answered s.reg (0x00#8 :: strBytes (List.replicate a.length sym0))))

/-- 42_xor_combiner.md section 1 (f), marked as derived in the spec: COMBINE of (COMBINE of `a`, `b`) and `c` answers
what COMBINE of `a` and (COMBINE of `b`, `c`) answers: the three strings padded to the longest length and XORed. -/
def Obligations.CombineAssociative : Prop :=
  ∀ (a b c : List Symbol) (s : State), BitString a → BitString b → BitString c →
    a.length < 2 ^ 32 → b.length < 2 ^ 32 → c.length < 2 ^ 32 →
    ∃ ab bc r : List Symbol,
      exec (.combine a b) s = .next (s.answered s.reg (0x00#8 :: strBytes ab)) ∧
      exec (.combine b c) s = .next (s.answered s.reg (0x00#8 :: strBytes bc)) ∧
      (∀ t : State, exec (.combine ab c) t = .next (t.answered t.reg (0x00#8 :: strBytes r)) ∧
        exec (.combine a bc) t = .next (t.answered t.reg (0x00#8 :: strBytes r))) ∧
      r.length = max a.length (max b.length c.length) ∧
      ∀ j : Nat, j < r.length → ∃ x y z, paddedAt sym0 r.length a j = some x ∧ paddedAt sym0 r.length b j = some y ∧
        paddedAt sym0 r.length c j = some z ∧ r[j]? = some (xorSym (xorSym x y) z)

/-- 42_xor_combiner.md section 3 (COMBINEB, the spec's decision D26): the longer operand's length, and at every
position the byte XOR of the operands padded on the left with 0x00; no operand faults. -/
def Obligations.CombinebXorsPaddedBytes : Prop :=
  ∀ (a b : List Byte) (s : State), a.length < 2 ^ 32 → b.length < 2 ^ 32 →
    ∃ r : List Byte, r.length = max a.length b.length ∧
      exec (.combineb a b) s = .next (s.answered s.reg (0x00#8 :: (u32Bytes r.length ++ r))) ∧
      ∀ j : Nat, j < r.length → ∃ c d, paddedAt 0x00#8 r.length a j = some c ∧
        paddedAt 0x00#8 r.length b j = some d ∧ r[j]? = some (c ^^^ d)

/-- 42_xor_combiner.md section 3 (marked as derived in the spec): the bytes that COMBINEB answers, expanded into the
characters of their bits, most significant bit of a byte first, are the string that COMBINE answers on the operands'
expansions, wherever those fit a frame. -/
def Obligations.CombinebIsCombineOfBits : Prop :=
  ∀ (a b : List Byte) (s : State), 8 * a.length < 2 ^ 32 → 8 * b.length < 2 ^ 32 →
    ∃ r : List Byte,
      exec (.combineb a b) s = .next (s.answered s.reg (0x00#8 :: strBytes r)) ∧
      exec (.combine ((a.flatMap byteBits).map symOf) ((b.flatMap byteBits).map symOf)) s =
        .next (s.answered s.reg (0x00#8 :: strBytes ((r.flatMap byteBits).map symOf)))

/-! ### The image walk

R154's images have rows of one width; that these statements hold of rows of unequal width too is the model's choice
(log entry 18). -/

/-- 43_byte_cipher.md section 2 (PROCIMG): with an accepted seed (within LMAX) and tap the walk completes for every
image; the output has the same rows of the same widths and the same alphas; its channel values in row-major order are the input's XOR
the bytes that as many SHIFTBYTE commands return after the LOAD, and the record ends as theirs. -/
def Obligations.ProcImgMasksChannels : Prop :=
  ∀ (img : Image) (seed : List Symbol) (tap : Int) (s : State),
    LoadAccepted seed tap → AdmitsSeed s seed → seed.length < 2 ^ 32 → tap < 2 ^ 31 →
    ∃ (out : Image) (t : State) (ks : List Byte) (u : State),
      procImg img seed tap s = .done out t ∧
      out.map List.length = img.map List.length ∧
      out.flatten.map Pixel.a = img.flatten.map Pixel.a ∧
      issueAll (.load seed tap :: List.replicate (imageChannels img).length .shiftbyte) s =
        some ([0x00#8] :: ks.map (fun k => [0x00#8, k]), u) ∧
      imageChannels out = List.zipWith (fun v k => v ^^^ k) (imageChannels img) ks ∧
      ks.length = 3 * img.flatten.length ∧ t.reg = u.reg

/-- 43_byte_cipher.md section 2 (the image round trip, marked as derived in the spec): PROCIMG twice with the same
seed (within LMAX) and tap, from any two states, gives the image back exactly. -/
def Obligations.ProcImgTwiceIsIdentity : Prop :=
  ∀ (img : Image) (seed : List Symbol) (tap : Int) (s s2 : State),
    LoadAccepted seed tap → AdmitsSeed s seed → AdmitsSeed s2 seed → seed.length < 2 ^ 32 → tap < 2 ^ 31 →
    ∃ (out : Image) (t t2 : State),
      procImg img seed tap s = .done out t ∧ procImg out seed tap s2 = .done img t2 ∧
      encryptImage img seed tap s = .done out t ∧ decryptImage out seed tap s2 = .done img t2

/-- 30_encoding.md section 6 (pseudo-instructions): PROCIMG issues exactly its command sequence: LOAD, then one XORBYTE
per channel value; its responses carry the output's channel values in order. -/
def Obligations.ProcImgIssuesItsCommands : Prop :=
  ∀ (img : Image) (seed : List Symbol) (tap : Int) (s t : State) (out : Image),
    procImg img seed tap s = .done out t →
    issueAll (procImgCommands img seed tap) s = some ([0x00#8] :: (imageChannels out).map (fun v => [0x00#8, v]), t)

/-! ### Faults and the record -/

/-- R176: a command answered with a fault leaves every field of the record as it was, its response is the one status
byte, and nothing else happens. -/
def Obligations.FaultChangesNothing : Prop :=
  ∀ (i : Instr) (s t : State) (f : Frame),
    exec i s = .next t → t.responses = s.responses ++ [f] → isFaultFrame f = true →
      f.length = 1 ∧ t = s.answered s.reg f

/-- 60_exceptions.md section 2 (no retries, not sticky): re-sending a command that was answered with a fault is
answered with the same fault, and the record is still the same. -/
def Obligations.FaultRepeats : Prop :=
  ∀ (i : Instr) (s t : State) (f : Frame),
    exec i s = .next t → t.responses = s.responses ++ [f] → isFaultFrame f = true →
      exec i t = .next (t.answered s.reg f)

/-- 30_encoding.md section 1: one command, one response: it appends one legal response frame and leaves the bounds
and the host's pending events alone. -/
def Obligations.OneResponsePerCommand : Prop :=
  ∀ (i : Instr) (s t : State), exec i s = .next t →
    ∃ f : Frame, legalResponse f = true ∧ t = s.answered t.reg f

/-- 20_memory.md section 3 and 10_state.md section 5: COMBINE, ENCRYPT, DECRYPT, COMBINEB, RDLAST, RDSTATE and GENKS 0
leave the record as it was. -/
def Obligations.PureCommandsLeaveRecord : Prop :=
  ∀ (i : Instr) (s t : State), isPure i = true → exec i s = .next t → t.reg = s.reg

/-- 10_state.md section 3: no command other than LOAD changes `tap`, `L` or `loaded`. -/
def Obligations.OnlyLoadWritesTap : Prop :=
  ∀ (i : Instr) (s t : State), isLoad i = false → exec i s = .next t →
    t.reg.tap = s.reg.tap ∧ t.reg.L = s.reg.L ∧ t.reg.loaded = s.reg.loaded ∧
      t.reg.bits.length = s.reg.bits.length

/-- R27, over every run of well-formed commands that begins with an accepted LOAD and in which any further LOAD is
refused: the run completes; after it `len(bits) = L`, `L >= 1`, `1 <= tap <= L`, `tap` and `L` are what the LOAD wrote,
and `lastBit` is *no value* exactly when no step has run. -/
def Obligations.LoadedRegisterInvariants : Prop :=
  ∀ (seed : List Symbol) (tap : Int) (cmds : List Instr) (s : State),
    LoadAccepted seed tap → Instr.wellFormed s.limits (.load seed tap) = true →
    (∀ i ∈ cmds, Instr.wellFormed s.limits i = true) →
    (∀ i ∈ cmds, ∀ seed' tap', i = .load seed' tap' → ¬ LoadAccepted seed' tap') →
    ∃ (fs : List Frame) (t : State), issueAll (.load seed tap :: cmds) s = some (fs, t) ∧
      t.reg.loaded = true ∧ t.reg.bits.length = t.reg.L ∧ 1 ≤ t.reg.L ∧ 1 ≤ t.reg.tap ∧ t.reg.tap ≤ t.reg.L ∧
      t.reg.L = seed.length ∧ t.reg.tap = tap ∧
      (t.reg.lastBit = none ↔ ∀ i ∈ cmds, stepsRegister i = false)

/-- 10_state.md section 3: `lastBit` never influences a result: two states that differ in it alone answer every
command but RDLAST and RDSTATE alike and go on alike but for it. -/
def Obligations.LastBitInfluencesNoResult : Prop :=
  ∀ (i : Instr) (s t : State) (l : Option Bit), readsLast i = false → exec i s = .next t →
    ∃ l' : Option Bit,
      exec i (s.withReg (s.reg.withLast l)) = .next (t.withReg (t.reg.withLast l'))

/-- 10_state.md sections 1 and 6: while `loaded` is false no command reads the other four fields: any two such records
give the same response, and then either both stay as they were or both are the same new record. -/
def Obligations.UnloadedFieldsAreNotRead : Prop :=
  ∀ (i : Instr) (s t : State) (r : Register), s.reg.loaded = false → r.loaded = false → exec i s = .next t →
    ∃ t' : State, exec i (s.withReg r) = .next t' ∧ t'.responses = t.responses ∧
      ((t.reg = s.reg ∧ t'.reg = r) ∨ t'.reg = t.reg)

/-! ### Frames -/

/-- 30_encoding.md sections 2 to 5: every well-formed command is decoded from its frame, with every operand, for every
LMAX and NMAX. -/
def Obligations.DecodeOfEncode : Prop :=
  ∀ (lim : Limits) (i : Instr), i.wellFormed lim = true → decodeFrame lim (encode i) = .ok i

/-- 30_encoding.md sections 2 to 5: a frame has one meaning and a meaning has one frame: what decodes is well formed and
its encoding is the frame that was read. -/
def Obligations.EncodeOfDecode : Prop :=
  ∀ (lim : Limits) (f : Frame) (i : Instr), decodeFrame lim f = .ok i → i.wellFormed lim = true ∧ encode i = f

/-- 30_encoding.md section 4 (the opcode map and illegal opcodes, the spec's decisions D14, D16): the empty frame and
every frame that begins with 0x00 or 0x0C to 0xFF select no command; from every other opcode some frame decodes, and
whatever frame decodes, its opcode is the one that the map gives the command it decodes to. -/
def Obligations.IllegalOpcodesSelectNothing : Prop :=
  ∀ lim : Limits, decodeFrame lim [] = .error .emptyFrame ∧
    ∀ op : Byte,
      ((op = 0x00#8 ∨ 0x0C ≤ op.toNat) → ∀ rest, decodeFrame lim (op :: rest) = .error .illegalOpcode) ∧
      (1 ≤ op.toNat → op.toNat ≤ 0x0B → ∃ rest i, decodeFrame lim (op :: rest) = .ok i) ∧
      ∀ (rest : List Byte) (i : Instr), decodeFrame lim (op :: rest) = .ok i →
        match i with
        | .load _ _ => op = 0x01#8
        | .shift => op = 0x02#8
        | .shiftbyte => op = 0x03#8
        | .genks _ => op = 0x04#8
        | .combine _ _ => op = 0x05#8
        | .encrypt _ _ => op = 0x06#8
        | .decrypt _ _ => op = 0x07#8
        | .combineb _ _ => op = 0x08#8
        | .xorbyte _ => op = 0x09#8
        | .rdlast => op = 0x0A#8
        | .rdstate => op = 0x0B#8

/-- 30_encoding.md section 4 (malformed frames (a), (b), the spec's decision D16): a frame that decodes is refused when
bytes follow it, and when any of its bytes at the end are cut off. -/
def Obligations.FrameLengthIsExact : Prop :=
  ∀ (lim : Limits) (f : Frame) (i : Instr), decodeFrame lim f = .ok i →
    frameLength f = some f.length ∧
    (∀ tail : List Byte, tail ≠ [] → decodeFrame lim (f ++ tail) = .error .trailingBytes) ∧
    (∀ n : Nat, 0 < n → n < f.length → decodeFrame lim (f.take n) = .error .tooShort)

/-- 30_encoding.md section 4 (malformed frames (c), the spec's decision D3): a seed above LMAX, another string operand or
`steps` above NMAX, is refused at decode. That NMAX bounds the byte sequences of COMBINEB too is the model's reading of
"any other string" (log entry 13, DEDUCED). -/
def Obligations.OversizeOperandsRefused : Prop :=
  ∀ (lim : Limits) (m : Nat) (a b : List Byte) (v : Int),
    a.length < 2 ^ 32 → b.length < 2 ^ 32 → fitsI32 v = true →
    (lim.lmax = some m → m < a.length → decodeFrame lim (encode (.load a v)) = .error .overBound) ∧
    (lim.nmax = some m → (m : Int) < v → decodeFrame lim (encode (.genks v)) = .error .overBound) ∧
    (lim.nmax = some m → (m < a.length ∨ m < b.length) →
      decodeFrame lim (encode (.combine a b)) = .error .overBound ∧
      decodeFrame lim (encode (.encrypt a b)) = .error .overBound ∧
      decodeFrame lim (encode (.decrypt a b)) = .error .overBound ∧
      decodeFrame lim (encode (.combineb a b)) = .error .overBound)

/-- 30_encoding.md section 5 (worked encodings): the seven command frames of the spec's table decode to the commands
it writes beside them. -/
def Obligations.WorkedFramesDecode : Prop :=
  decodeFrame .unbounded [0x01#8, 0x00#8, 0x00#8, 0x00#8, 0x0B#8, 0x30#8, 0x31#8, 0x31#8, 0x30#8, 0x31#8, 0x30#8,
    0x30#8, 0x30#8, 0x30#8, 0x31#8, 0x30#8, 0x00#8, 0x00#8, 0x00#8, 0x09#8] =
    .ok (.load [sym0, sym1, sym1, sym0, sym1, sym0, sym0, sym0, sym0, sym1, sym0] 9) ∧
  decodeFrame .unbounded [0x02#8] = .ok .shift ∧
  decodeFrame .unbounded [0x04#8, 0x00#8, 0x00#8, 0x00#8, 0x03#8] = .ok (.genks 3) ∧
  decodeFrame .unbounded [0x04#8, 0xFF#8, 0xFF#8, 0xFF#8, 0xFF#8] = .ok (.genks (-1)) ∧
  decodeFrame .unbounded [0x05#8, 0x00#8, 0x00#8, 0x00#8, 0x03#8, 0x31#8, 0x30#8, 0x31#8, 0x00#8, 0x00#8, 0x00#8,
    0x04#8, 0x31#8, 0x31#8, 0x30#8, 0x30#8] = .ok (.combine [sym1, sym0, sym1] [sym1, sym1, sym0, sym0]) ∧
  decodeFrame .unbounded [0x09#8, 0x00#8] = .ok (.xorbyte 0x00#8) ∧
  decodeFrame .unbounded [0x01#8, 0x00#8, 0x00#8, 0x00#8, 0x00#8, 0x00#8, 0x00#8, 0x00#8, 0x01#8] = .ok (.load [] 1)

/-! ### The machine -/

/-- 30_encoding.md section 1: when the presented frame decodes to a command, the step is that command's execution,
after the frame is taken from the host's list (the list is the model's own, log entry 2). -/
def Obligations.StepRunsDecodedCommand : Prop :=
  ∀ (s : State) (f : Frame) (rest : List HostEvent) (i : Instr),
    s.host = .command f :: rest → decodeFrame s.limits f = .ok i → step s = exec i { s with host := rest }

/-- 60_exceptions.md section 1 (IllegalCommand, the spec's decision D16): a frame that selects no command is answered
with status 0x08, and nothing else changes. -/
def Obligations.IllegalFrameAnswered : Prop :=
  ∀ (s : State) (f : Frame) (rest : List HostEvent) (e : DecodeError),
    s.host = .command f :: rest → decodeFrame s.limits f = .error e →
    step s = .next (State.answered { s with host := rest } s.reg [0x08#8])

/-- 70_reset_and_hazards.md section 1 (the reset event, the spec's decision D9): the record becomes that of reset,
whatever it was, and no response is sent; that the bounds, the pending events and the responses stay is the model's
choice (log entry 6). With nothing pending nothing changes (the model's choice, log entry 5). -/
def Obligations.ResetEventAndIdle : Prop :=
  (∀ (s : State) (rest : List HostEvent), s.host = .reset :: rest →
    step s = .next (State.withReg { s with host := rest } State.reset.reg)) ∧
  ∀ s : State, s.host = [] → step s = .next s

/-- 70_reset_and_hazards.md section 1 (reset state, the spec's decision D9): no Register is loaded and `lastBit` has no
value; from there SHIFT, SHIFTBYTE, XORBYTE, GENKS and RDLAST raise `NoRegister`, RDSTATE answers filler zeros. -/
def Obligations.ResetHasNoRegister : Prop :=
  State.reset.reg.loaded = false ∧ State.reset.reg.lastBit = none ∧
  (∀ i : Instr, (i = .shift ∨ i = .shiftbyte ∨ (∃ v, i = .xorbyte v) ∨ (∃ n, i = .genks n) ∨ i = .rdlast) →
    exec i State.reset = .next (State.reset.answered State.reset.reg [0x04#8])) ∧
  exec .rdstate State.reset = .next (State.reset.answered State.reset.reg (List.replicate 12 0x00#8))

/-- 10_state.md section 3: the machine after reset meets the invariant, for any bounds of the implementation and
whatever the host will send. -/
def Obligations.ResetMeetsInvariant : Prop :=
  ∀ (lim : Limits) (events : List HostEvent), State.Inv { State.reset with limits := lim, host := events }

/-- 10_state.md section 3 and 20_memory.md section 3: from every state that meets the invariant, for every bounds and
whatever the host sends, the step answers a next state, which meets the invariant again: the core never stops. -/
def Obligations.StepNeverStopsAndKeepsInv : Prop :=
  ∀ s : State, s.Inv → ∃ t : State, step s = .next t ∧ t.Inv ∧ t.limits = s.limits ∧ t.host = s.host.tail

/-- 20_memory.md section 5: the frames of a list of commands, presented in order, are executed strictly in that order,
each to completion before the next: as many steps as commands give the state and the responses of the commands one
after another, those above LMAX or NMAX among them (the host's list is the model's own, log entry 2). -/
def Obligations.CommandsRunInHostOrder : Prop :=
  ∀ (cmds : List Instr) (rest : List HostEvent) (s t : State) (fs : List Frame),
    (∀ i ∈ cmds, Instr.wellFormed .unbounded i = true) →
    s.host = cmds.map (fun i => HostEvent.command (encode i)) ++ rest →
    issueAll cmds { s with host := rest } = some (fs, t) →
    Sys2Proof.core.run cmds.length s = .next t ∧ t.host = rest ∧ t.responses = s.responses ++ fs

/-! ### Numbers and layouts, told without the model's own tables -/

/-- 60_exceptions.md section 1 (the status numbers, the spec's decision D15): the response that carries `InvalidSeed`
is the byte 0x01, that of `InvalidTap` 0x02, that of `KeystreamUnavailable` 0x03. -/
def Obligations.DocumentFaultNumbers : Prop :=
  ∀ (seed p : List Symbol) (tap : Int) (s : State),
    ((seed = [] ∨ ∃ c ∈ seed, c ≠ sym0 ∧ c ≠ sym1) → exec (.load seed tap) s = .next (s.answered s.reg [0x01#8])) ∧
    (seed ≠ [] → BitString seed → (tap < 1 ∨ (seed.length : Int) < tap) →
      exec (.load seed tap) s = .next (s.answered s.reg [0x02#8])) ∧
    exec (.encrypt p []) s = .next (s.answered s.reg [0x03#8]) ∧
    exec (.decrypt p []) s = .next (s.answered s.reg [0x03#8])

/-- 30_encoding.md sections 2 to 4 (the spec's decisions D13, D14; the byte weights are its general knowledge, G2,
PRESUMED in log entry 11): a frame decodes to a command exactly when the command is within the bounds (for COMBINEB as
log entry 13 reads them) and the frame is laid out as `LaidOut` says: its opcode, then its fields in order, each byte
with its weight. -/
def Obligations.FramesAreLaidOut : Prop :=
  ∀ (lim : Limits) (f : Frame) (i : Instr),
    decodeFrame lim f = .ok i ↔ i.wellFormed lim = true ∧ LaidOut i f

/-! ### Commands that the host issues under bounds -/

/-- 30_encoding.md sections 1 and 4 (malformed frames (c), the spec's decision D3): issuing a command that has a frame is
presenting that frame, for every LMAX and NMAX: executed within the bounds, an illegal command above them. -/
def Obligations.IssuedCommandIsItsFrame : Prop :=
  ∀ (i : Instr) (s : State), i.wellFormed .unbounded = true → acceptCommand i s = acceptFrame (encode i) s

/-- 43_byte_cipher.md section 2 (PROCIMG) with 40_register.md section 1 (a seed longer than LMAX, the spec's decision
D3): the LOAD of a seed above LMAX is answered `IllegalCommand`, whatever the seed's symbols and the tap; PROCIMG and
the other runs that begin with a LOAD stop with it, have no output and change no record. -/
def Obligations.ProcImgRefusesOversizeSeed : Prop :=
  ∀ (img : Image) (seed : List Symbol) (tap n : Int) (s : State) (m : Nat), s.limits.lmax = some m → m < seed.length →
    procImg img seed tap s = .failed [0x08#8] (s.answered s.reg [0x08#8]) ∧
    encryptImage img seed tap s = .failed [0x08#8] (s.answered s.reg [0x08#8]) ∧
    decryptImage img seed tap s = .failed [0x08#8] (s.answered s.reg [0x08#8]) ∧
    generateKeystream seed tap n s = .failed [0x08#8] (s.answered s.reg [0x08#8])

/-- 30_encoding.md section 6 (GENERATEKEYSTREAM) with 60_exceptions.md section 1 (the spec's decisions D3, D23): after an
accepted LOAD a negative `steps` ends the run with `InvalidSteps`, one above NMAX with `IllegalCommand`; there is no
keystream, and the record is the freshly constructed Register. -/
def Obligations.GenerateKeystreamFailsOnBadSteps : Prop :=
  ∀ (seed : List Symbol) (tap n : Int) (s : State), LoadAccepted seed tap → AdmitsSeed s seed →
    ∃ r : Register, exec (.load seed tap) s = .next (s.answered r [0x00#8]) ∧
      (n < 0 → generateKeystream seed tap n s = .failed [0x05#8] ((s.answered r [0x00#8]).answered r [0x05#8])) ∧
      ∀ m : Nat, s.limits.nmax = some m → (m : Int) < n →
        generateKeystream seed tap n s = .failed [0x08#8] ((s.answered r [0x00#8]).answered r [0x08#8])
end

