-- ==== Sys2Proof/Laws/State.lean ====
section
/-! SUPPORT. One lemma per field per update of the state and of the record, so that no proof unfolds an update. -/

namespace Sys2Proof.Machine

@[simp] theorem State.answered_reg (s : State) (r : Register) (f : Frame) : (s.answered r f).reg = r := rfl
@[simp] theorem State.answered_limits (s : State) (r : Register) (f : Frame) : (s.answered r f).limits = s.limits := rfl
@[simp] theorem State.answered_host (s : State) (r : Register) (f : Frame) : (s.answered r f).host = s.host := rfl
@[simp] theorem State.answered_responses (s : State) (r : Register) (f : Frame) :
    (s.answered r f).responses = s.responses ++ [f] := rfl

@[simp] theorem State.withReg_reg (s : State) (r : Register) : (s.withReg r).reg = r := rfl
@[simp] theorem State.withReg_limits (s : State) (r : Register) : (s.withReg r).limits = s.limits := rfl
@[simp] theorem State.withReg_host (s : State) (r : Register) : (s.withReg r).host = s.host := rfl
@[simp] theorem State.withReg_responses (s : State) (r : Register) : (s.withReg r).responses = s.responses := rfl
@[simp] theorem State.withReg_self (s : State) : s.withReg s.reg = s := rfl
@[simp] theorem State.withReg_withReg (s : State) (r r' : Register) : (s.withReg r).withReg r' = s.withReg r' := rfl
@[simp] theorem State.withReg_answered (s : State) (r r' : Register) (f : Frame) :
    (s.withReg r).answered r' f = s.answered r' f := rfl
@[simp] theorem State.answered_withReg (s : State) (r r' : Register) (f : Frame) :
    (s.answered r f).withReg r' = s.answered r' f := rfl

@[simp] theorem Register.withLast_loaded (r : Register) (l : Option Bit) : (r.withLast l).loaded = r.loaded := rfl
@[simp] theorem Register.withLast_L (r : Register) (l : Option Bit) : (r.withLast l).L = r.L := rfl
@[simp] theorem Register.withLast_bits (r : Register) (l : Option Bit) : (r.withLast l).bits = r.bits := rfl
@[simp] theorem Register.withLast_tap (r : Register) (l : Option Bit) : (r.withLast l).tap = r.tap := rfl
@[simp] theorem Register.withLast_lastBit (r : Register) (l : Option Bit) : (r.withLast l).lastBit = l := rfl

@[simp] theorem resetCore_reg (s : State) : (resetCore s).reg = Register.unloaded := rfl
@[simp] theorem resetCore_limits (s : State) : (resetCore s).limits = s.limits := rfl
@[simp] theorem resetCore_host (s : State) : (resetCore s).host = s.host := rfl
@[simp] theorem resetCore_responses (s : State) : (resetCore s).responses = s.responses := rfl

@[simp] theorem State.withFetchWord_reg (s : State) (n w : Nat) : (s.withFetchWord n w).reg = s.reg := rfl
@[simp] theorem State.withFetchWord_limits (s : State) (n w : Nat) : (s.withFetchWord n w).limits = s.limits := rfl
@[simp] theorem State.withFetchWord_host (s : State) (n w : Nat) :
    (s.withFetchWord n w).host = .command (frameOfTableWord n w) :: s.host := rfl
@[simp] theorem State.withFetchWord_responses (s : State) (n w : Nat) :
    (s.withFetchWord n w).responses = s.responses := rfl

@[simp] theorem Register.feed_loaded (r : Register) (b : Bit) : (r.feed b).loaded = r.loaded := rfl
@[simp] theorem Register.feed_L (r : Register) (b : Bit) : (r.feed b).L = r.L := rfl
@[simp] theorem Register.feed_bits (r : Register) (b : Bit) : (r.feed b).bits = r.bits.drop 1 ++ [b] := rfl
@[simp] theorem Register.feed_tap (r : Register) (b : Bit) : (r.feed b).tap = r.tap := rfl
@[simp] theorem Register.feed_lastBit (r : Register) (b : Bit) : (r.feed b).lastBit = some b := rfl

@[simp] theorem Register.setLast_loaded (r : Register) (b : Bit) : (r.setLast b).loaded = r.loaded := rfl
@[simp] theorem Register.setLast_L (r : Register) (b : Bit) : (r.setLast b).L = r.L := rfl
@[simp] theorem Register.setLast_bits (r : Register) (b : Bit) : (r.setLast b).bits = r.bits := rfl
@[simp] theorem Register.setLast_tap (r : Register) (b : Bit) : (r.setLast b).tap = r.tap := rfl
@[simp] theorem Register.setLast_lastBit (r : Register) (b : Bit) : (r.setLast b).lastBit = some b := rfl

@[simp] theorem Register.construct_loaded (bs : List Bit) (t : Int) : (Register.construct bs t).loaded = true := rfl
@[simp] theorem Register.construct_L (bs : List Bit) (t : Int) : (Register.construct bs t).L = bs.length := rfl
@[simp] theorem Register.construct_bits (bs : List Bit) (t : Int) : (Register.construct bs t).bits = bs := rfl
@[simp] theorem Register.construct_tap (bs : List Bit) (t : Int) : (Register.construct bs t).tap = t := rfl
@[simp] theorem Register.construct_lastBit (bs : List Bit) (t : Int) : (Register.construct bs t).lastBit = none := rfl

end Sys2Proof.Machine
end

