-- ==== Sys2Proof/Laws/Decode.lean ====
section
/-! SUPPORT. Frame fields: what a reader makes of the bytes a writer lays out, and the only bytes it accepts. -/

namespace Sys2Proof

@[simp] theorem u32Bytes_length (n : Nat) : (u32Bytes n).length = 4 := rfl
@[simp] theorem i32Bytes_length (v : Int) : (i32Bytes v).length = 4 := rfl
@[simp] theorem strBytes_length (xs : List Byte) : (strBytes xs).length = 4 + xs.length := by simp [strBytes]

theorem u32Value_lt (b0 b1 b2 b3 : Byte) : u32Value b0 b1 b2 b3 < 2 ^ 32 := by
  have := b0.isLt; have := b1.isLt; have := b2.isLt; have := b3.isLt
  simp only [u32Value]; omega

theorem u32Value_ofNat {n : Nat} (h : n < 2 ^ 32) :
    u32Value (BitVec.ofNat 8 (n / 2 ^ 24)) (BitVec.ofNat 8 (n / 2 ^ 16)) (BitVec.ofNat 8 (n / 2 ^ 8))
      (BitVec.ofNat 8 n) = n := by
  simp only [u32Value, BitVec.toNat_ofNat]; omega

theorem u32Bytes_value (b0 b1 b2 b3 : Byte) : u32Bytes (u32Value b0 b1 b2 b3) = [b0, b1, b2, b3] := by
  have := b0.isLt; have := b1.isLt; have := b2.isLt; have := b3.isLt
  simp only [u32Bytes, u32Value, List.cons.injEq, and_true]
  refine ⟨?_, ?_, ?_, ?_⟩ <;> apply BitVec.eq_of_toNat_eq <;> simp only [BitVec.toNat_ofNat] <;> omega

theorem readU32_bytes {n : Nat} (h : n < 2 ^ 32) (rest : List Byte) :
    readU32 (u32Bytes n ++ rest) = .ok (n, rest) := by
  have := u32Value_ofNat h
  simp only [u32Bytes, List.cons_append, List.nil_append, readU32, this]

/-- A `u32` field is read from exactly its four bytes. -/
theorem readU32_eq_ok {bytes rest : List Byte} {n : Nat} :
    readU32 bytes = .ok (n, rest) ↔ bytes = u32Bytes n ++ rest ∧ n < 2 ^ 32 := by
  refine ⟨fun h => ?_, fun ⟨h, hn⟩ => h ▸ readU32_bytes hn rest⟩
  match bytes, h with
  | b0 :: b1 :: b2 :: b3 :: tl, h =>
    cases h
    exact ⟨by rw [u32Bytes_value]; rfl, u32Value_lt b0 b1 b2 b3⟩

/-- A reader of a `u32` field refuses exactly fewer than four bytes. -/
theorem readU32_eq_error {bytes : List Byte} {e : DecodeError} :
    readU32 bytes = .error e ↔ e = .tooShort ∧ bytes.length < 4 := by
  match bytes with
  | [] | [_] | [_, _] | [_, _, _] => simp [readU32, eq_comm]
  | _ :: _ :: _ :: _ :: _ => simp [readU32]

theorem fitsI32_iff {v : Int} : fitsI32 v = true ↔ -(2 ^ 31) ≤ v ∧ v < 2 ^ 31 := by simp [fitsI32]

theorem okLength_iff {bound : Option Nat} {n : Nat} :
    okLength bound n = true ↔ n < 2 ^ 32 ∧ withinBound bound n = true := by simp [okLength, fitsU32]

theorem i32OfU32_wrap {v : Int} (h : fitsI32 v = true) : i32OfU32 (v % 2 ^ 32).toNat = v := by
  rw [fitsI32_iff] at h
  simp only [i32OfU32]; split <;> omega

theorem i32OfU32_fits {n : Nat} (h : n < 2 ^ 32) : fitsI32 (i32OfU32 n) = true := by
  rw [fitsI32_iff, i32OfU32]; split <;> omega

theorem i32OfU32_unwrap {n : Nat} (h : n < 2 ^ 32) : (i32OfU32 n % 2 ^ 32).toNat = n := by
  simp only [i32OfU32]; split <;> omega

/-- An `i32` field is read from exactly its four bytes. -/
theorem readI32_eq_ok {bytes rest : List Byte} {v : Int} :
    readI32 bytes = .ok (v, rest) ↔ bytes = i32Bytes v ++ rest ∧ fitsI32 v = true := by
  constructor
  · intro h
    simp only [readI32] at h
    split at h
    · rename_i n tl hr
      cases h
      obtain ⟨rfl, hn⟩ := readU32_eq_ok.1 hr
      exact ⟨by rw [i32Bytes, i32OfU32_unwrap hn], i32OfU32_fits hn⟩
    · cases h
  · rintro ⟨rfl, hv⟩
    have hlt : (v % 2 ^ 32).toNat < 2 ^ 32 := by omega
    rw [readI32, i32Bytes, readU32_bytes hlt]
    simp only [i32OfU32_wrap hv]

theorem readI32_eq_error {bytes : List Byte} {e : DecodeError} :
    readI32 bytes = .error e ↔ e = .tooShort ∧ bytes.length < 4 := by
  rw [← readU32_eq_error, readI32]
  rcases readU32 bytes with e' | ⟨n, tl⟩ <;> simp

/-- A `str` or `bytes` field is read from exactly its length and its elements. -/
theorem readStr_eq_ok {bound : Option Nat} {bytes xs rest : List Byte} :
    readStr bound bytes = .ok (xs, rest) ↔ bytes = strBytes xs ++ rest ∧ okLength bound xs.length = true := by
  constructor
  · intro h
    simp only [readStr] at h
    split at h
    · rename_i n tl hr
      obtain ⟨rfl, hn⟩ := readU32_eq_ok.1 hr
      split at h
      · cases h
      · split at h
        · cases h
        · rename_i hb hl
          cases h
          have hlen : (tl.take n).length = n := by simp; omega
          refine ⟨by rw [strBytes, hlen, List.append_assoc, List.take_append_drop], ?_⟩
          rw [hlen, okLength_iff]
          exact ⟨hn, by simpa using hb⟩
    · cases h
  · rintro ⟨rfl, hok⟩
    rw [okLength_iff] at hok
    rw [readStr, strBytes, List.append_assoc, readU32_bytes hok.1]
    simp [hok.2]

theorem readStr_of_ok {bound : Option Nat} {xs : List Byte} (h : okLength bound xs.length = true) (rest : List Byte) :
    readStr bound (strBytes xs ++ rest) = .ok (xs, rest) := readStr_eq_ok.2 ⟨rfl, h⟩

/-- The bytes that the writer lays out are the one `u32` field of a value. -/
theorem isU32_iff {n : Nat} {bs : List Byte} : Machine.IsU32 n bs ↔ n < 2 ^ 32 ∧ bs = u32Bytes n := by
  constructor
  · rintro ⟨b0, b1, b2, b3, rfl, rfl⟩
    exact ⟨u32Value_lt b0 b1 b2 b3, (u32Bytes_value b0 b1 b2 b3).symm⟩
  · rintro ⟨hn, rfl⟩
    exact ⟨_, _, _, _, rfl, (u32Value_ofNat hn).symm⟩

/-- The sign bit of an `i32` field is the top bit of its `u32` reading. -/
theorem i32OfU32_value (b0 b1 b2 b3 : Byte) :
    i32OfU32 (u32Value b0 b1 b2 b3) =
      (u32Value b0 b1 b2 b3 : Nat) - (if b0.getLsbD 7 then 4294967296 else 0 : Int) := by
  have := b0.isLt; have := b1.isLt; have := b2.isLt; have := b3.isLt
  have hmsb : b0.getLsbD 7 = decide (128 ≤ b0.toNat) := by
    simpa [BitVec.msb_eq_getLsbD_last] using BitVec.msb_eq_decide b0
  rw [hmsb]
  simp only [i32OfU32, u32Value, decide_eq_true_eq]
  split_ifs <;> omega

/-- The bytes that the writer lays out are the one `i32` field of a value. -/
theorem isI32_iff {v : Int} {bs : List Byte} : Machine.IsI32 v bs ↔ fitsI32 v = true ∧ bs = i32Bytes v := by
  constructor
  · rintro ⟨b0, b1, b2, b3, rfl, hv⟩
    obtain rfl : v = i32OfU32 (u32Value b0 b1 b2 b3) := hv.trans (i32OfU32_value b0 b1 b2 b3).symm
    have hlt := u32Value_lt b0 b1 b2 b3
    exact ⟨i32OfU32_fits hlt, by rw [i32Bytes, i32OfU32_unwrap hlt, u32Bytes_value]⟩
  · rintro ⟨hv, rfl⟩
    have hlt : (v % 2 ^ 32).toNat < 2 ^ 32 := by omega
    refine ⟨_, _, _, _, rfl, Eq.trans ?_ (i32OfU32_value _ _ _ _)⟩
    rw [u32Value_ofNat hlt, i32OfU32_wrap hv]

/-- Format `N` is nothing after the opcode. -/
theorem decodeN_eq_ok {i j : Instr} {bytes : List Byte} : decodeN i bytes = .ok j ↔ j = i ∧ bytes = [] := by
  cases bytes <;> simp [decodeN, eq_comm]

/-- Format `I`. -/
theorem decodeI_eq_ok {bound : Option Nat} {mk : Int → Instr} {bytes : List Byte} {j : Instr} :
    decodeI bound mk bytes = .ok j ↔
      ∃ v, bytes = i32Bytes v ∧ j = mk v ∧ fitsI32 v = true ∧ okSteps bound v = true := by
  constructor
  · intro h
    simp only [decodeI] at h
    split at h
    · rename_i v tl hr
      split at h
      · obtain ⟨rfl, rfl⟩ := decodeN_eq_ok.1 h
        obtain ⟨rfl, hv⟩ := readI32_eq_ok.1 hr
        exact ⟨v, List.append_nil _, rfl, hv, ‹_›⟩
      · cases h
    · cases h
  · rintro ⟨v, rfl, rfl, hv, hs⟩
    have : readI32 (i32Bytes v) = .ok (v, []) := readI32_eq_ok.2 ⟨(List.append_nil _).symm, hv⟩
    simp [decodeI, this, hs, decodeN]

/-- Format `B`. -/
theorem decodeB_eq_ok {mk : Byte → Instr} {bytes : List Byte} {j : Instr} :
    decodeB mk bytes = .ok j ↔ ∃ v, bytes = [v] ∧ j = mk v := by
  match bytes with
  | [] => simp [decodeB]
  | v :: tl => simp [decodeB, decodeN_eq_ok, and_comm]

/-- Format `SI`. -/
theorem decodeSI_eq_ok {bound : Option Nat} {mk : List Byte → Int → Instr} {bytes : List Byte} {j : Instr} :
    decodeSI bound mk bytes = .ok j ↔
      ∃ s v, bytes = strBytes s ++ i32Bytes v ∧ j = mk s v ∧ okLength bound s.length = true ∧ fitsI32 v = true := by
  constructor
  · intro h
    simp only [decodeSI] at h
    split at h
    · rename_i s tl hs
      split at h
      · rename_i v tl' hv
        obtain ⟨rfl, rfl⟩ := decodeN_eq_ok.1 h
        obtain ⟨rfl, hok⟩ := readStr_eq_ok.1 hs
        obtain ⟨rfl, hfit⟩ := readI32_eq_ok.1 hv
        exact ⟨s, v, by rw [List.append_nil], rfl, hok, hfit⟩
      · cases h
    · cases h
  · rintro ⟨s, v, rfl, rfl, hs, hv⟩
    have : readI32 (i32Bytes v) = .ok (v, []) := readI32_eq_ok.2 ⟨(List.append_nil _).symm, hv⟩
    simp [decodeSI, readStr_of_ok hs, this, decodeN]

/-- Format `SS`. -/
theorem decodeSS_eq_ok {bound : Option Nat} {mk : List Byte → List Byte → Instr} {bytes : List Byte} {j : Instr} :
    decodeSS bound mk bytes = .ok j ↔
      ∃ a b, bytes = strBytes a ++ strBytes b ∧ j = mk a b ∧ okLength bound a.length = true ∧
        okLength bound b.length = true := by
  constructor
  · intro h
    simp only [decodeSS] at h
    split at h
    · rename_i a tl ha
      split at h
      · rename_i b tl' hb
        obtain ⟨rfl, rfl⟩ := decodeN_eq_ok.1 h
        obtain ⟨rfl, hok⟩ := readStr_eq_ok.1 ha
        obtain ⟨rfl, hok'⟩ := readStr_eq_ok.1 hb
        exact ⟨a, b, by rw [List.append_nil], rfl, hok, hok'⟩
      · cases h
    · cases h
  · rintro ⟨a, b, rfl, rfl, ha, hb⟩
    have := readStr_of_ok hb []
    rw [List.append_nil] at this
    simp [decodeSS, readStr_of_ok ha, this, decodeN]

/-- What a bounded implementation decodes is what fits the fields and is within the bounds (R62, R69 case (c)). -/
theorem wellFormed_iff {lim : Limits} {i : Instr} :
    i.wellFormed lim = true ↔ i.wellFormed .unbounded = true ∧ i.withinLimits lim = true := by
  cases i <;> simp [Instr.wellFormed, Instr.withinLimits, okLength, okSteps, withinBound, Limits.unbounded] <;> tauto

/-- A seed within LMAX, in words. -/
theorem withinBound_iff {bound : Option Nat} {n : Nat} :
    withinBound bound n = true ↔ ∀ m : Nat, bound = some m → n ≤ m := by
  cases bound <;> simp [withinBound, eq_comm]

end Sys2Proof
end

