-- ==== Sys2Proof/Laws/Operands.lean ====
section
/-! SUPPORT. Symbols and bits, packing, left padding, the position-wise combination, response frames. -/

namespace Sys2Proof.Machine

@[simp] theorem bitOf_symOf (b : Bit) : bitOf (symOf b) = some b := by cases b <;> decide

theorem symOf_of_bitOf {c : Symbol} {b : Bit} (h : bitOf c = some b) : symOf b = c := by
  unfold bitOf at h
  split at h
  · cases h; simp_all [symOf]
  · split at h <;> cases h; simp_all [symOf]

theorem bitOf_eq_none {c : Symbol} : bitOf c = none ↔ c ≠ sym0 ∧ c ≠ sym1 := by
  unfold bitOf; split
  · simp_all
  · split <;> simp_all

theorem symOf_binary (b : Bit) : symOf b = sym0 ∨ symOf b = sym1 := by cases b <;> decide

theorem xorSym_symOf (a b : Bit) : xorSym (symOf a) (symOf b) = symOf (a ^^ b) := by
  cases a <;> cases b <;> decide

@[simp] theorem bitsOf_symsOf (bs : List Bit) : bitsOf (symsOf bs) = some bs := by
  induction bs with
  | nil => rfl
  | cons b bs ih => simp_all [symsOf, bitsOf]

/-- The only strings with bits are the characters of those bits. -/
theorem bitsOf_eq_some {xs : List Symbol} {bs : List Bit} : bitsOf xs = some bs ↔ xs = symsOf bs := by
  refine ⟨fun h => ?_, fun h => h ▸ bitsOf_symsOf bs⟩
  induction xs generalizing bs with
  | nil => cases h; rfl
  | cons c cs ih =>
    unfold bitsOf at h
    split at h
    · rename_i b bs' hb hbs
      cases h
      simp [symsOf, symOf_of_bitOf hb, ih hbs]
    · cases h

theorem bitsOf_eq_none {xs : List Symbol} : bitsOf xs = none ↔ ∃ c ∈ xs, c ≠ sym0 ∧ c ≠ sym1 := by
  induction xs with
  | nil => simp [bitsOf]
  | cons c cs ih =>
    rw [List.exists_mem_cons_iff, ← ih, ← bitOf_eq_none, bitsOf]
    split <;> rename_i h
    · simp_all
    · rcases hb : bitOf c with _ | b
      · simp
      · rcases hs : bitsOf cs with _ | bs
        · simp
        · exact absurd hs (h b bs hb)

theorem bitString_symsOf (bs : List Bit) : BitString (symsOf bs) := by
  intro c hc
  obtain ⟨b, -, rfl⟩ := List.mem_map.1 hc
  exact symOf_binary b

/-- A bit-string is the characters of some bits. -/
theorem BitString.exists_bits {xs : List Symbol} (h : BitString xs) : ∃ bs, xs = symsOf bs := by
  rcases hb : bitsOf xs with _ | bs
  · obtain ⟨c, hc, h0, h1⟩ := bitsOf_eq_none.1 hb
    exact absurd (h c hc) (by simp [h0, h1])
  · exact ⟨bs, bitsOf_eq_some.1 hb⟩

@[simp] theorem symsOf_length (bs : List Bit) : (symsOf bs).length = bs.length := List.length_map _

@[simp] theorem leftPad_length {α : Type} (z : α) (n : Nat) (xs : List α) :
    (leftPad z n xs).length = max n xs.length := by
  simp [leftPad]; omega

theorem leftPad_getElem? {α : Type} (z : α) (n : Nat) (xs : List α) (j : Nat) :
    (leftPad z n xs)[j]? = paddedAt z n xs j := by
  unfold leftPad paddedAt
  split
  · rw [List.getElem?_append_left (by simpa)]; simp [*]
  · rw [List.getElem?_append_right (by simp; omega)]; simp

@[simp] theorem combineWith_length {α : Type} (z : α) (op : α → α → α) (a b : List α) :
    (combineWith z op a b).length = max a.length b.length := by
  simp [combineWith]

theorem combineWith_getElem? {α : Type} (z : α) (op : α → α → α) (a b : List α) (j : Nat) :
    (combineWith z op a b)[j]? =
      (match paddedAt z (max a.length b.length) a j, paddedAt z (max a.length b.length) b j with
       | some x, some y => some (op x y)
       | _, _ => none) := by
  simp only [combineWith, List.getElem?_zipWith, leftPad_getElem?]
  rcases paddedAt z (max a.length b.length) a j <;> rcases paddedAt z (max a.length b.length) b j <;> rfl

theorem paddedAt_isSome {α : Type} (z : α) {n : Nat} {xs : List α} {j : Nat} (h : xs.length ≤ n) (hj : j < n) :
    ∃ x, paddedAt z n xs j = some x := by
  unfold paddedAt
  split
  · exact ⟨z, rfl⟩
  · exact ⟨_, List.getElem?_eq_getElem (by omega)⟩

theorem paddedAt_symsOf (n : Nat) (bs : List Bit) (j : Nat) :
    paddedAt sym0 n (symsOf bs) j = (paddedAt false n bs j).map symOf := by
  simp only [paddedAt, symsOf_length]
  split <;> simp [symsOf, symOf]

@[simp] theorem combineBits_length (a b : List Bit) : (combineBits a b).length = max a.length b.length :=
  combineWith_length _ _ _ _

@[simp] theorem combineBytes_length (a b : List Byte) : (combineBytes a b).length = max a.length b.length :=
  combineWith_length _ _ _ _

@[simp] theorem Status.code_ok : Status.code .ok = 0x00#8 := rfl
@[simp] theorem Status.code_invalidSeed : Status.code .invalidSeed = 0x01#8 := rfl
@[simp] theorem Status.code_invalidTap : Status.code .invalidTap = 0x02#8 := rfl
@[simp] theorem Status.code_keystreamUnavailable : Status.code .keystreamUnavailable = 0x03#8 := rfl
@[simp] theorem Status.code_noRegister : Status.code .noRegister = 0x04#8 := rfl
@[simp] theorem Status.code_invalidSteps : Status.code .invalidSteps = 0x05#8 := rfl
@[simp] theorem Status.code_invalidOperand : Status.code .invalidOperand = 0x06#8 := rfl
@[simp] theorem Status.code_noValue : Status.code .noValue = 0x07#8 := rfl
@[simp] theorem Status.code_illegalCommand : Status.code .illegalCommand = 0x08#8 := rfl

@[simp] theorem frame_raised (st : Status) : (Response.raised st).frame = some [st.code] := rfl
@[simp] theorem frame_done : Response.done.frame = some [0x00#8] := rfl
@[simp] theorem frame_bit (b : Bit) : (Response.bit b).frame = some [0x00#8, bitByte b] := rfl
@[simp] theorem frame_byte (v : Byte) : (Response.byte v).frame = some [0x00#8, v] := rfl

theorem frame_str {syms : List Symbol} (h : syms.length < 2 ^ 32) :
    (Response.str syms).frame = some (0x00#8 :: strBytes syms) := by
  rw [Response.frame, fitsU32, decide_eq_true h]; rfl

theorem frame_bytes {bs : List Byte} (h : bs.length < 2 ^ 32) :
    (Response.bytes bs).frame = some (0x00#8 :: strBytes bs) := by
  rw [Response.frame, fitsU32, decide_eq_true h]; rfl

/-- A response with a frame has a legal one (R71, R170). -/
theorem frame_legal {resp : Response} {f : Frame} (h : resp.frame = some f) : legalResponse f = true := by
  cases resp with
  | raised st => cases h; cases st <;> decide
  | done => cases h; decide
  | bit b => cases h; cases b <;> decide
  | byte v => cases h; simp [legalResponse, Status.code]
  | str _ => simp only [Response.frame] at h; split at h <;> cases h; simp [legalResponse, Status.code]
  | bytes _ => simp only [Response.frame] at h; split at h <;> cases h; simp [legalResponse, Status.code]
  | record => simp only [Response.frame] at h; split at h <;> cases h; simp [legalResponse, Status.code]

end Sys2Proof.Machine
end

