-- ==== Sys2Proof/Laws/Ops.lean ====
section
/-! SUPPORT. What each shared operation can do, once: a step of the register, chained steps, answering, raising,
the guards of the commands, and exec by instruction. -/

namespace Sys2Proof.Machine

theorem Register.element_nat (r : Register) (i : Nat) : r.element (i : Int) = r.bits[i]? := by
  simp [Register.element]

@[simp] theorem Register.element_zero (r : Register) : r.element 0 = r.bits[0]? := by
  simpa using r.element_nat 0

/-- A step is the feed of the XOR of the two bits it reads (R102). -/
theorem Register.shift_eq_some {r r' : Register} {b : Bit} :
    r.shift = some (b, r') ↔
      ∃ d t, r.element 0 = some d ∧ r.element (r.L - r.tap) = some t ∧ b = feedback d t ∧ r' = r.feed b := by
  unfold Register.shift
  constructor
  · intro h
    split at h
    · rename_i d t hd ht
      cases h
      exact ⟨d, t, hd, ht, rfl, rfl⟩
    · cases h
  · rintro ⟨d, t, hd, ht, rfl, rfl⟩
    simp [hd, ht]

/-- On a sound loaded register a step always succeeds (R19, R102). -/
theorem Register.Sound.shift {r : Register} (h : r.Sound) (hl : r.loaded = true) :
    ∃ d t, r.bits[0]? = some d ∧ r.bits[r.L - r.tap.toNat]? = some t ∧ r.shift = some (d ^^ t, r.feed (d ^^ t)) := by
  obtain ⟨hlen, h1, -, ht1, ht2, -, -⟩ := h hl
  have hd : r.bits[0]? = some r.bits[0] := List.getElem?_eq_getElem (by omega)
  have ht : r.bits[r.L - r.tap.toNat]? = some r.bits[r.L - r.tap.toNat] := List.getElem?_eq_getElem (by omega)
  have hi : (r.L : Int) - r.tap = ((r.L - r.tap.toNat : Nat) : Int) := by omega
  refine ⟨_, _, hd, ht, Register.shift_eq_some.2 ⟨_, _, ?_, ?_, rfl, rfl⟩⟩
  · rw [Register.element_zero, hd]
  · rw [hi, Register.element_nat, ht]

/-- A step keeps R27. -/
theorem Register.Sound.feed {r : Register} (h : r.Sound) (b : Bit) : (r.feed b).Sound := by
  intro hl
  obtain ⟨hlen, h1, h2, ht1, ht2, ht3, -⟩ := h hl
  refine ⟨?_, h1, h2, ht1, ht2, ht3, .inr ?_⟩
  · simp; omega
  · simp

theorem Register.shifts_zero (r : Register) : Register.shifts 0 r = some ([], r) := rfl

theorem Register.shifts_succ (n : Nat) (r : Register) :
    Register.shifts (n + 1) r = (r.shift).bind fun p => (Register.shifts n p.2).map fun q => (p.1 :: q.1, q.2) := by
  rw [Register.shifts]
  rcases r.shift with _ | ⟨b, r1⟩
  · rfl
  · simp only [Option.bind_some]
    rcases Register.shifts n r1 with _ | ⟨bs, r2⟩ <;> rfl

/-- Chained steps split anywhere (R121). -/
theorem Register.shifts_add (m n : Nat) (r : Register) :
    Register.shifts (m + n) r =
      (Register.shifts m r).bind fun p => (Register.shifts n p.2).map fun q => (p.1 ++ q.1, q.2) := by
  induction m generalizing r with
  | zero => simp [Register.shifts_zero]
  | succ m ih =>
    rw [Nat.succ_add_eq_add_succ, Nat.add_succ, Register.shifts_succ, Register.shifts_succ]
    rcases r.shift with _ | ⟨b, r1⟩
    · rfl
    · simp only [Option.bind_some, ih]
      rcases Register.shifts m r1 with _ | ⟨bs, r2⟩
      · rfl
      · simp only [Option.bind_some, Option.map_some]
        rcases Register.shifts n r2 with _ | ⟨cs, r3⟩ <;> rfl

/-- What chained steps leave unchanged, and that they emit one bit each. -/
theorem Register.shifts_frame {n : Nat} {r r' : Register} {bs : List Bit} (h : Register.shifts n r = some (bs, r')) :
    bs.length = n ∧ r'.loaded = r.loaded ∧ r'.L = r.L ∧ r'.tap = r.tap ∧ (r.Sound → r'.Sound) := by
  induction n generalizing r bs with
  | zero => cases h; simp
  | succ n ih =>
    rw [Register.shifts_succ] at h
    obtain ⟨⟨b, r1⟩, h1, h⟩ := Option.bind_eq_some_iff.1 h
    obtain ⟨⟨cs, r2⟩, h2, h⟩ := Option.map_eq_some_iff.1 h
    cases h
    obtain ⟨d, t, -, -, -, rfl⟩ := Register.shift_eq_some.1 h1
    obtain ⟨hn, h3, h4, h5, h6⟩ := ih h2
    exact ⟨by simp [hn], h3, h4, h5, fun hs => h6 (hs.feed b)⟩

/-- On a sound loaded register any number of steps succeeds. -/
theorem Register.Sound.shifts {r : Register} (h : r.Sound) (hl : r.loaded = true) (n : Nat) :
    ∃ bs r', Register.shifts n r = some (bs, r') ∧ bs.length = n ∧ r'.loaded = true ∧ r'.L = r.L ∧ r'.tap = r.tap ∧
      r'.Sound := by
  suffices hs : ∃ bs r', Register.shifts n r = some (bs, r') by
    obtain ⟨bs, r', hs⟩ := hs
    obtain ⟨h1, h2, h3, h4, h5⟩ := Register.shifts_frame hs
    exact ⟨bs, r', hs, h1, h2.trans hl, h3, h4, h5 h⟩
  induction n generalizing r with
  | zero => exact ⟨[], r, rfl⟩
  | succ n ih =>
    obtain ⟨d, t, -, -, hsh⟩ := h.shift hl
    obtain ⟨bs, r', hr⟩ := ih (h.feed (d ^^ t)) hl
    exact ⟨(d ^^ t) :: bs, r', by rw [Register.shifts_succ, hsh]; simp [hr]⟩

/-- SHIFTBYTE is eight chained steps and their packing (R104). -/
theorem Register.shiftByte_eq (r : Register) :
    r.shiftByte = (Register.shifts 8 r).map fun p => (packByte p.1, p.2) := by
  rw [Register.shiftByte, stepsPerByte]
  rcases Register.shifts 8 r with _ | ⟨bs, r'⟩ <;> rfl

/-- The Register that an accepted LOAD constructs meets R27. -/
theorem Register.construct_sound {bs : List Bit} {tap : Int} (h0 : bs ≠ []) (h1 : bs.length < 2 ^ 32)
    (h2 : 1 ≤ tap) (h3 : tap ≤ bs.length) (h4 : tap < 2 ^ 31) : (Register.construct bs tap).Sound := by
  intro _
  have := List.length_pos_of_ne_nil h0
  exact ⟨rfl, this, h1, h2, h3, h4, .inl rfl⟩

/-- A response that has a frame is appended, and nothing else changes. -/
theorem answer_of_frame {resp : Response} {f : Frame} (h : resp.frame = some f) (s : State) :
    answer resp s = .next (s.answered s.reg f) := by
  simp only [answer, h]; rfl

/-- All that answering can do. -/
theorem answer_eq_next {resp : Response} {s t : State} :
    answer resp s = .next t ↔ ∃ f, resp.frame = some f ∧ t = s.answered s.reg f := by
  refine ⟨fun h => ?_, fun ⟨f, hf, ht⟩ => ht ▸ answer_of_frame hf s⟩
  rcases hf : resp.frame with _ | f
  · simp [answer, hf] at h
  · rw [answer_of_frame hf] at h
    exact ⟨f, rfl, by cases h; rfl⟩

/-- A fault changes nothing but the list of responses (R176). -/
theorem raise_eq (st : Status) (s : State) : raise st s = .next (s.answered s.reg [st.code]) :=
  answer_of_frame (frame_raised st) s

theorem withRegister_of_loaded {s : State} (h : s.reg.loaded = true) (go : Result) : withRegister s go = go := by
  simp [withRegister, h]

theorem withRegister_of_not_loaded {s : State} (h : s.reg.loaded = false) (go : Result) :
    withRegister s go = .next (s.answered s.reg [0x04#8]) := by
  simpa [withRegister, h] using raise_eq .noRegister s

theorem advance_some {α : Type} {v : α} {r : Register} {reply : α → Response} {f : Frame} (s : State)
    (h : (reply v).frame = some f) : advance (some (v, r)) reply s = .next (s.answered r f) := by
  simp only [advance, answer_of_frame h]; rfl

/-- All that the end of a stepping command can do. -/
theorem advance_eq_next {α : Type} {o : Option (α × Register)} {reply : α → Response} {s t : State} :
    advance o reply s = .next t ↔ ∃ v r f, o = some (v, r) ∧ (reply v).frame = some f ∧ t = s.answered r f := by
  constructor
  · intro h
    rcases o with _ | ⟨v, r⟩
    · cases h
    · obtain ⟨f, hf, rfl⟩ := answer_eq_next.1 h
      exact ⟨v, r, f, rfl, hf, rfl⟩
  · rintro ⟨v, r, f, rfl, hf, rfl⟩
    exact advance_some s hf

/-- COMBINE's check and result on the characters of two sequences of bits. -/
theorem combineStrings_symsOf {x y : List Bit} (s : State) (hx : x.length < 2 ^ 32) (hy : y.length < 2 ^ 32) :
    combineStrings (symsOf x) (symsOf y) s = .next (s.answered s.reg (0x00#8 :: strBytes (symsOf (combineBits x y)))) := by
  have h : (symsOf (combineBits x y)).length < 2 ^ 32 := by simp; omega
  simpa [combineStrings] using answer_of_frame (frame_str h) s

theorem combineStrings_nonBinary {a b : List Symbol} (s : State) (h : ∃ c ∈ a ++ b, c ≠ sym0 ∧ c ≠ sym1) :
    combineStrings a b s = .next (s.answered s.reg [0x06#8]) := by
  have : bitsOf a = none ∨ bitsOf b = none := by
    obtain ⟨c, hc, hn⟩ := h
    rcases List.mem_append.1 hc with hc | hc
    · exact .inl (bitsOf_eq_none.2 ⟨c, hc, hn⟩)
    · exact .inr (bitsOf_eq_none.2 ⟨c, hc, hn⟩)
  rw [combineStrings]
  rcases this with h | h
  · simpa [h] using raise_eq .invalidOperand s
  · rcases bitsOf a <;> simpa [h] using raise_eq .invalidOperand s

/-- Whatever its operands, COMBINE's check and result leave the record alone (42_xor_combiner.md, first lines). -/
theorem combineStrings_next {a b : List Symbol} {s t : State} (h : combineStrings a b s = .next t) :
    ∃ f, t = s.answered s.reg f := by
  rw [combineStrings] at h
  split at h
  · obtain ⟨f, -, rfl⟩ := answer_eq_next.1 h
    exact ⟨f, rfl⟩
  · rw [raise_eq] at h
    cases h
    exact ⟨_, rfl⟩

theorem withKeystream_nil (s : State) (go : Result) :
    withKeystream [] s go = .next (s.answered s.reg [0x03#8]) := by
  simpa [withKeystream] using raise_eq .keystreamUnavailable s

theorem withKeystream_of_ne {k : List Symbol} (h : k ≠ []) (s : State) (go : Result) : withKeystream k s go = go := by
  simp [withKeystream, h]

/-- LOAD of the characters of some bits with a tap in range. -/
theorem execLoad_symsOf {bs : List Bit} {tap : Int} (s : State) (h0 : bs ≠ []) (h1 : 1 ≤ tap) (h2 : tap ≤ bs.length) :
    execLoad (symsOf bs) tap s = .next (s.answered (Register.construct bs tap) [0x00#8]) := by
  have hne : symsOf bs ≠ [] := by simpa [symsOf] using h0
  have hr : ¬ (tap < 1 ∨ ((symsOf bs).length : Int) < tap) := by simp; omega
  rw [execLoad, if_neg hne, bitsOf_symsOf]
  simp only [if_neg hr, answer_of_frame frame_done]
  rfl

theorem execLoad_invalidSeed {seed : List Symbol} (h : seed = [] ∨ ∃ c ∈ seed, c ≠ sym0 ∧ c ≠ sym1) (tap : Int)
    (s : State) : execLoad seed tap s = .next (s.answered s.reg [0x01#8]) := by
  rw [execLoad]
  split
  · exact raise_eq .invalidSeed s
  · rw [bitsOf_eq_none.2 (h.resolve_left ‹_›)]; exact raise_eq .invalidSeed s

theorem execLoad_invalidTap {bs : List Bit} {tap : Int} (s : State) (h0 : bs ≠ [])
    (h : tap < 1 ∨ (bs.length : Int) < tap) : execLoad (symsOf bs) tap s = .next (s.answered s.reg [0x02#8]) := by
  have hne : symsOf bs ≠ [] := by simpa [symsOf] using h0
  rw [execLoad, if_neg hne, bitsOf_symsOf]
  simpa [h] using raise_eq .invalidTap s

/-- A step of the register does not read `lastBit` (R24). -/
theorem Register.shift_withLast (r : Register) (l : Option Bit) : (r.withLast l).shift = r.shift := rfl

/-- A frame that decodes is its command's execution, any other is answered `IllegalCommand` (R179). -/
theorem acceptFrame_ok {f : Frame} {s : State} {i : Instr} (h : decodeFrame s.limits f = .ok i) :
    acceptFrame f s = exec i s := by rw [acceptFrame, h]

theorem acceptFrame_error {f : Frame} {s : State} {e : DecodeError} (h : decodeFrame s.limits f = .error e) :
    acceptFrame f s = .next (s.answered s.reg [0x08#8]) := by
  simp only [acceptFrame, h]
  exact raise_eq .illegalCommand s

theorem acceptCommand_of_within {i : Instr} {s : State} (h : i.withinLimits s.limits = true) :
    acceptCommand i s = exec i s := if_pos h

theorem acceptCommand_of_overBound {i : Instr} {s : State} (h : i.withinLimits s.limits = false) :
    acceptCommand i s = .next (s.answered s.reg [0x08#8]) := by
  rw [acceptCommand, h]
  exact raise_eq .illegalCommand s

end Sys2Proof.Machine
end

