-- ==== Sys2Proof/Laws/PerInstr.lean ====
section
/-! SUPPORT. Per instruction: the length that R64 computes from a frame is the length of the encoder's frame. -/

namespace Sys2Proof

theorem getD_append_four (l : List Byte) (n : Nat) (tl : List Byte) :
    u32At (l ++ (u32Bytes n ++ tl)) l.length =
      u32Value (BitVec.ofNat 8 (n / 2 ^ 24)) (BitVec.ofNat 8 (n / 2 ^ 16)) (BitVec.ofNat 8 (n / 2 ^ 8))
        (BitVec.ofNat 8 n) := by
  simp [u32At, u32Bytes, List.getD]

/-- The `u32` at the offset where its four bytes stand. -/
theorem u32At_bytes {n : Nat} (h : n < 2 ^ 32) (l tl : List Byte) : u32At (l ++ (u32Bytes n ++ tl)) l.length = n := by
  rw [getD_append_four, u32Value_ofNat h]

theorem u32At_one {n : Nat} (h : n < 2 ^ 32) (op : Byte) (tl : List Byte) :
    u32At (op :: (u32Bytes n ++ tl)) 1 = n := u32At_bytes h [op] tl

theorem frameLength_SI (seed : List Byte) (tap : Int) (h : seed.length < 2 ^ 32) :
    u32At (0x01#8 :: (strBytes seed ++ i32Bytes tap)) 1 = seed.length := by
  rw [strBytes, List.append_assoc, u32At_one h]

/-- The two length fields of format `SS` (R63). -/
theorem frameLength_SS (op : Byte) (a b : List Byte) (ha : a.length < 2 ^ 32) (hb : b.length < 2 ^ 32) :
    u32At (op :: (strBytes a ++ strBytes b)) 1 = a.length ∧
      u32At (op :: (strBytes a ++ strBytes b)) (5 + a.length) = b.length := by
  refine ⟨by rw [strBytes, List.append_assoc, u32At_one ha], ?_⟩
  have := u32At_bytes hb (op :: strBytes a) b
  rwa [List.length_cons, strBytes_length, Nat.add_right_comm] at this

/-- R64 on a frame of format `SS`. -/
theorem frameLength_of_SS {op : Byte} {a b : List Byte} (hop : op.toNat = 5 ∨ op.toNat = 6 ∨ op.toNat = 7 ∨ op.toNat = 8)
    (ha : a.length < 2 ^ 32) (hb : b.length < 2 ^ 32) :
    frameLength (op :: (strBytes a ++ strBytes b)) = some (op :: (strBytes a ++ strBytes b)).length := by
  obtain ⟨h1, h2⟩ := frameLength_SS op a b ha hb
  rcases hop with h | h | h | h <;>
    · simp only [frameLength, h, h1, h2, List.length_cons, List.length_append, strBytes_length]
      congr 1; omega

namespace Laws.FrameLength

/-- R64: the total length told from the opcode and the length fields is the frame's length. -/
def Statement (i : Instr) : Prop :=
  ∀ lim : Limits, i.wellFormed lim = true → frameLength (encode i) = some (encode i).length

theorem load (seed : List Symbol) (tap : Int) : Statement (.load seed tap) := by
  intro lim h
  simp only [Instr.wellFormed, Bool.and_eq_true, okLength_iff] at h
  simp only [encode, frameLength, BitVec.toNat_ofNat, Nat.reducePow, Nat.reduceMod, frameLength_SI seed tap h.1.1,
    List.length_cons, List.length_append, strBytes_length, i32Bytes_length]
  congr 1; omega

theorem shift : Statement .shift := fun _ _ => rfl
theorem shiftbyte : Statement .shiftbyte := fun _ _ => rfl
theorem genks (steps : Int) : Statement (.genks steps) := fun _ _ => rfl

theorem combine (a b : List Symbol) : Statement (.combine a b) := by
  intro lim h
  simp only [Instr.wellFormed, Bool.and_eq_true, okLength_iff] at h
  exact frameLength_of_SS (.inl rfl) h.1.1 h.2.1

theorem encrypt (p k : List Symbol) : Statement (.encrypt p k) := by
  intro lim h
  simp only [Instr.wellFormed, Bool.and_eq_true, okLength_iff] at h
  exact frameLength_of_SS (.inr (.inl rfl)) h.1.1 h.2.1

theorem decrypt (c k : List Symbol) : Statement (.decrypt c k) := by
  intro lim h
  simp only [Instr.wellFormed, Bool.and_eq_true, okLength_iff] at h
  exact frameLength_of_SS (.inr (.inr (.inl rfl))) h.1.1 h.2.1

theorem combineb (a b : List Byte) : Statement (.combineb a b) := by
  intro lim h
  simp only [Instr.wellFormed, Bool.and_eq_true, okLength_iff] at h
  exact frameLength_of_SS (.inr (.inr (.inr rfl))) h.1.1 h.2.1

theorem xorbyte (v : Byte) : Statement (.xorbyte v) := fun _ _ => rfl
theorem rdlast : Statement .rdlast := fun _ _ => rfl
theorem rdstate : Statement .rdstate := fun _ _ => rfl

end Laws.FrameLength

end Sys2Proof
end

