-- ==== Sys2Proof/Laws/Pseudo.lean ====
section
/-! SUPPORT. Commands issued by the host one after another: what issuing one gives, and how lists of commands split. -/

namespace Sys2Proof.Machine

/-- An answered command is issued with its response (R60). -/
theorem issue_of_exec {i : Instr} {s : State} {r : Register} {f : Frame} (hl : i.withinLimits s.limits = true)
    (h : exec i s = .next (s.answered r f)) : issue i s = some (f, s.answered r f) := by
  simp [issue, acceptCommand, hl, h]

/-- A command above LMAX or NMAX is issued and refused (R69). -/
theorem issue_of_overBound {i : Instr} {s : State} (hl : i.withinLimits s.limits = false) :
    issue i s = some ([0x08#8], s.answered s.reg [0x08#8]) := by
  simp [issue, acceptCommand, hl, raise_eq]

/-- All that issuing a command can do. -/
theorem issue_eq_some {i : Instr} {s t : State} {f : Frame} :
    issue i s = some (f, t) ↔ acceptCommand i s = .next t ∧ t.responses.getLast? = some f := by
  constructor
  · intro h
    rw [issue] at h
    split at h
    · rename_i u hu
      split at h
      · rename_i g hg
        cases h
        exact ⟨hu, hg⟩
      · cases h
    · cases h
  · rintro ⟨h, hf⟩
    simp [issue, h, hf]

theorem issueAll_nil (s : State) : issueAll [] s = some ([], s) := rfl

theorem issueAll_cons (i : Instr) (is : List Instr) (s : State) :
    issueAll (i :: is) s = (issue i s).bind fun p => (issueAll is p.2).map fun q => (p.1 :: q.1, q.2) := by
  rw [issueAll]
  rcases issue i s with _ | ⟨f, s1⟩
  · rfl
  · simp only [Option.bind_some]
    rcases issueAll is s1 with _ | ⟨fs, s2⟩ <;> rfl

/-- Issuing a list is issuing its two parts in order (R50). -/
theorem issueAll_append (is js : List Instr) (s : State) :
    issueAll (is ++ js) s = (issueAll is s).bind fun p => (issueAll js p.2).map fun q => (p.1 ++ q.1, q.2) := by
  induction is generalizing s with
  | nil => simp [issueAll_nil]
  | cons i is ih =>
    rw [List.cons_append, issueAll_cons, issueAll_cons]
    rcases issue i s with _ | ⟨f, s1⟩
    · rfl
    · simp only [Option.bind_some, ih]
      rcases issueAll is s1 with _ | ⟨fs, s2⟩
      · rfl
      · simp only [Option.bind_some, Option.map_some]
        rcases issueAll js s2 with _ | ⟨gs, s3⟩ <;> rfl

/-- The walk over a channel is an issued XORBYTE (R152). -/
theorem walkChannel_of_exec {v k : Byte} {s : State} {r : Register}
    (h : exec (.xorbyte v) s = .next (s.answered r [0x00#8, k])) :
    walkChannel v s = some (k, s.answered r [0x00#8, k]) := by
  simp [walkChannel, issue_of_exec rfl h, resultByte]

/-- After an accepted LOAD the run goes on from the constructed Register (R100). -/
theorem afterLoad_of_ok {α : Type} {seed : List Symbol} {tap : Int} {s : State} {r : Register}
    (hl : withinBound s.limits.lmax seed.length = true) (h : exec (.load seed tap) s = .next (s.answered r [0x00#8]))
    (go : State → PseudoResult α) : afterLoad seed tap s go = go (s.answered r [0x00#8]) := by
  simp [afterLoad, issue_of_exec (i := .load seed tap) hl h]

/-- A LOAD answered with a fault ends the run (R171, R172). -/
theorem afterLoad_of_fault {α : Type} {seed : List Symbol} {tap : Int} {s t : State} {f : Frame}
    (h : issue (.load seed tap) s = some (f, t)) (hf : f ≠ [0x00#8]) (go : State → PseudoResult α) :
    afterLoad seed tap s go = .failed f t := by
  simp [afterLoad, h, hf]

end Sys2Proof.Machine
end

