-- ==== Sys2Proof/Machine/Assembler.lean ====
section
/-! DEFINITION. The assembler text of a command (R73): mnemonic, then operands separated by commas. -/

namespace Sys2Proof.Machine

/-- A byte as two hexadecimal digits, as the spec writes them. -/
def hexByte (v : Byte) : List Char := [(Nat.digitChar (v.toNat / 16)).toUpper, (Nat.digitChar (v.toNat % 16)).toUpper]

/-- A byte operand: hexadecimal with `0x` (R73). -/
def byteText (v : Byte) : List Char := '0' :: 'x' :: hexByte v

/-- A symbol inside a quoted string: itself when printable, else `\xHH` (R73). That the two characters which would
end or confuse the string, the double quote and the backslash, are written as `\xHH` too is a DESIGN CHOICE
(log entry 14): safe, no step reads this text. -/
def symbolText (c : Symbol) : List Char :=
  if 0x20 ≤ c.toNat ∧ c.toNat ≤ 0x7E ∧ c ≠ 0x22#8 ∧ c ≠ 0x5C#8 then [Char.ofNat c.toNat]
  else '\\' :: 'x' :: hexByte c

/-- A string operand: its symbols from index 0 in double quotes (R73). -/
def stringText (xs : List Symbol) : List Char := '"' :: (xs.flatMap symbolText ++ ['"'])

/-- A byte sequence: brackets of bytes (R73). -/
def bytesText (bs : List Byte) : List Char := '[' :: ((bs.map byteText).intersperse [',', ' ']).flatten ++ [']']

/-- An integer in decimal with an optional minus sign (R73). -/
def intText (v : Int) : List Char := (if v < 0 then ['-'] else []) ++ Nat.toDigits 10 v.natAbs

/-- A mnemonic and its operands (R73). -/
def commandText (mnemonic : String) (operands : List (List Char)) : List Char :=
  mnemonic.toList ++ (if operands = [] then [] else ' ' :: (operands.intersperse [',', ' ']).flatten)

/-- The line of a command (R73). -/
def asmText : Instr → List Char
  | .load seed tap => commandText "LOAD" [stringText seed, intText tap]
  | .shift => commandText "SHIFT" []
  | .shiftbyte => commandText "SHIFTBYTE" []
  | .genks steps => commandText "GENKS" [intText steps]
  | .combine a b => commandText "COMBINE" [stringText a, stringText b]
  | .encrypt p k => commandText "ENCRYPT" [stringText p, stringText k]
  | .decrypt c k => commandText "DECRYPT" [stringText c, stringText k]
  | .combineb a b => commandText "COMBINEB" [bytesText a, bytesText b]
  | .xorbyte v => commandText "XORBYTE" [byteText v]
  | .rdlast => commandText "RDLAST" []
  | .rdstate => commandText "RDSTATE" []

end Sys2Proof.Machine
end

