-- ==== Sys2Proof/Tests/Slice0.lean ====
section
/-! SUPPORT. Tests: well-formedness refusals, decoding of words written out from the encodings, one step at a time on
small states, and a witness for the hypotheses of every obligation that has some. Expected results are those of
spec/95_test_vectors.md (sections named beside each test) and of 30_encoding.md R72. -/

namespace Sys2Proof.Tests

open Sys2Proof.Machine

/-! ### Helpers -/

/-- The bits of a string of digits. -/
def digits (text : String) : List Bit := text.toList.map (fun c => c == '1')

/-- The symbols of a string of characters, by their codes. -/
def symbols (text : String) : List Symbol := text.toList.map (fun c => BitVec.ofNat 8 c.toNat)

/-- A state with a Register, nothing pending and no response yet. -/
def loadedWith (bits : String) (tap : Int) (last : Option Bit) : State :=
  { State.reset with reg := ⟨true, (digits bits).length, digits bits, tap, last⟩ }

/-- The state after `LOAD "01101000010", 9` (section 1.1). -/
def seeded : State := loadedWith "01101000010" 9 none

/-- The outcome is a next state with this record whose newest response is this frame. -/
def endsWith (o : Result) (r : Register) (f : Frame) : Bool :=
  match o with
  | .next t => decide (t.reg = r) && decide (t.responses.getLast? = some f)
  | _ => false

/-- One step on a presented frame. -/
def present (s : State) (f : Frame) : Result := step { s with host := [.command f] }

/-! ### Well-formedness: an ill-formed term for each check -/

theorem test_wf_seed_over_u32 :
    Instr.wellFormed .unbounded (.load (List.replicate (2 ^ 32) sym0) 1) = false := by
  rw [Instr.wellFormed, List.length_replicate]
  decide

theorem test_wf_tap_over_i32 : Instr.wellFormed .unbounded (.load [sym1] (2 ^ 31)) = false := by decide
theorem test_wf_tap_under_i32 : Instr.wellFormed .unbounded (.load [sym1] (-(2 ^ 31) - 1)) = false := by decide
theorem test_wf_seed_over_lmax : Instr.wellFormed ⟨some 1, none⟩ (.load [sym1, sym0] 1) = false := by decide
theorem test_wf_steps_over_i32 : Instr.wellFormed .unbounded (.genks (2 ^ 31)) = false := by decide
theorem test_wf_steps_over_nmax : Instr.wellFormed ⟨none, some 3⟩ (.genks 4) = false := by decide
theorem test_wf_combine_first : Instr.wellFormed ⟨none, some 0⟩ (.combine [sym1] []) = false := by decide
theorem test_wf_combine_second : Instr.wellFormed ⟨none, some 0⟩ (.combine [] [sym1]) = false := by decide
theorem test_wf_encrypt_first : Instr.wellFormed ⟨none, some 0⟩ (.encrypt [sym1] []) = false := by decide
theorem test_wf_encrypt_second : Instr.wellFormed ⟨none, some 0⟩ (.encrypt [] [sym1]) = false := by decide
theorem test_wf_decrypt_first : Instr.wellFormed ⟨none, some 0⟩ (.decrypt [sym1] []) = false := by decide
theorem test_wf_decrypt_second : Instr.wellFormed ⟨none, some 0⟩ (.decrypt [] [sym1]) = false := by decide
theorem test_wf_combineb_first : Instr.wellFormed ⟨none, some 0⟩ (.combineb [1#8] []) = false := by decide
theorem test_wf_combineb_second : Instr.wellFormed ⟨none, some 0⟩ (.combineb [] [1#8]) = false := by decide
/-- R70: operand values that the semantics refuses are well formed. -/
theorem test_wf_refused_operands : Instr.wellFormed .unbounded (.load (symbols "01a") (-1)) = true := by decide

/-! ### Decoding: the frames of section 2.7 and R72 -/

theorem test_decode_load :
    decodeFrame .unbounded ([0x01, 0x00, 0x00, 0x00, 0x0B, 0x30, 0x31, 0x31, 0x30, 0x31, 0x30, 0x30, 0x30, 0x30,
      0x31, 0x30, 0x00, 0x00, 0x00, 0x09]) = .ok (.load (symbols "01101000010") 9) := by decide
theorem test_decode_load_nonbinary :
    decodeFrame .unbounded [0x01, 0x00, 0x00, 0x00, 0x04, 0x30, 0x31, 0x61, 0x31, 0x00, 0x00, 0x00, 0x02] =
      .ok (.load (symbols "01a1") 2) := by decide
theorem test_decode_load_negative_tap :
    decodeFrame .unbounded [0x01, 0x00, 0x00, 0x00, 0x04, 0x30, 0x31, 0x31, 0x30, 0xFF, 0xFF, 0xFF, 0xFF] =
      .ok (.load (symbols "0110") (-1)) := by decide
theorem test_decode_load_tap_cut :
    decodeFrame .unbounded [0x01, 0x00, 0x00, 0x00, 0x04, 0x30, 0x31, 0x31, 0x30, 0x00, 0x00, 0x00] =
      .error .tooShort := by decide
theorem test_decode_load_length_wrong :
    decodeFrame .unbounded [0x01, 0x00, 0x00, 0x00, 0x05, 0x30, 0x31, 0x31, 0x30, 0x00, 0x00, 0x00, 0x02] =
      .error .tooShort := by decide
theorem test_decode_shift : decodeFrame .unbounded [0x02] = .ok .shift := by decide
theorem test_decode_shift_trailing : decodeFrame .unbounded [0x02, 0x00] = .error .trailingBytes := by decide
theorem test_decode_shiftbyte : decodeFrame .unbounded [0x03] = .ok .shiftbyte := by decide
theorem test_decode_genks : decodeFrame .unbounded [0x04, 0x00, 0x00, 0x00, 0x0A] = .ok (.genks 10) := by decide
theorem test_decode_genks_negative :
    decodeFrame .unbounded [0x04, 0xFF, 0xFF, 0xFF, 0xFF] = .ok (.genks (-1)) := by decide
/-- R62: the first byte has weight 2^24 and bit 31 the weight -2^31. -/
theorem test_decode_genks_big_endian :
    decodeFrame .unbounded [0x04, 0x12, 0x34, 0x56, 0x78] = .ok (.genks 0x12345678) := by decide
theorem test_decode_combine :
    decodeFrame .unbounded [0x05, 0x00, 0x00, 0x00, 0x03, 0x31, 0x30, 0x31, 0x00, 0x00, 0x00, 0x04, 0x31, 0x31,
      0x30, 0x30] = .ok (.combine (symbols "101") (symbols "1100")) := by decide
theorem test_decode_encrypt :
    decodeFrame .unbounded [0x06, 0x00, 0x00, 0x00, 0x03, 0x31, 0x30, 0x31, 0x00, 0x00, 0x00, 0x00] =
      .ok (.encrypt (symbols "101") []) := by decide
theorem test_decode_decrypt :
    decodeFrame .unbounded [0x07, 0x00, 0x00, 0x00, 0x01, 0x31, 0x00, 0x00, 0x00, 0x02, 0x30, 0x31] =
      .ok (.decrypt (symbols "1") (symbols "01")) := by decide
theorem test_decode_combineb :
    decodeFrame .unbounded [0x08, 0x00, 0x00, 0x00, 0x01, 0x0F, 0x00, 0x00, 0x00, 0x02, 0x01, 0xF0] =
      .ok (.combineb [0x0F] [0x01, 0xF0]) := by decide
theorem test_decode_xorbyte : decodeFrame .unbounded [0x09, 0x5A] = .ok (.xorbyte 0x5A) := by decide
theorem test_decode_rdlast : decodeFrame .unbounded [0x0A] = .ok .rdlast := by decide
theorem test_decode_rdstate : decodeFrame .unbounded [0x0B] = .ok .rdstate := by decide
theorem test_decode_illegal_00 : decodeFrame .unbounded [0x00] = .error .illegalOpcode := by decide
theorem test_decode_illegal_0C : decodeFrame .unbounded [0x0C] = .error .illegalOpcode := by decide
theorem test_decode_illegal_FF : decodeFrame .unbounded [0xFF, 0x01, 0x02] = .error .illegalOpcode := by decide
theorem test_decode_empty : decodeFrame .unbounded [] = .error .emptyFrame := by decide
/-- R69 (c) at the boundary: LMAX = 2 admits two symbols and refuses three. -/
theorem test_decode_lmax_admits :
    decodeFrame ⟨some 2, none⟩ (encode (.load (symbols "01") 1)) = .ok (.load (symbols "01") 1) := by decide
theorem test_decode_lmax_refuses :
    decodeFrame ⟨some 2, none⟩ (encode (.load (symbols "010") 1)) = .error .overBound := by decide

/-! ### The words of the opcode table: decoded, and run as the first command after reset -/

theorem test_table_words :
    [1, 2, 3, 4, 5, 6, 7, 8, 9, 10, 11].map (decodeTableWord 8) =
      [some (.load [] 0), some .shift, some .shiftbyte, some (.genks 0), some (.combine [] []),
       some (.encrypt [] []), some (.decrypt [] []), some (.combineb [] []), some (.xorbyte 0), some .rdlast,
       some .rdstate] := by decide
/-- An empty seed is refused (section 2.1). -/
theorem test_fetch_load : endsWith (step (State.reset.withFetchWord 8 1)) Register.unloaded [0x01] = true := by decide
/-- COMBINE of two empty strings is the empty string (section 2.4). -/
theorem test_fetch_combine :
    endsWith (step (State.reset.withFetchWord 8 5)) Register.unloaded [0x00, 0x00, 0x00, 0x00, 0x00] = true := by decide

/-! ### One step per instruction -/

/-- Section 2.1: the first vector. -/
theorem test_load : endsWith (present State.reset (encode (.load (symbols "01101000010") 9))) seeded.reg [0x00] = true := by
  decide
/-- Section 2.1: a failed LOAD leaves an earlier Register; the seed is checked before the tap. -/
theorem test_load_seed_first :
    endsWith (exec (.load (symbols "01a1") 9) seeded) seeded.reg [0x01] = true := by decide
/-- Section 1.1, the source's worked example. -/
theorem test_shift : endsWith (present seeded [0x02]) (loadedWith "11010000101" 9 (some true)).reg [0x00, 0x01] = true := by
  decide
/-- Section 2.2: tap = 3, the sixth step from "1000" emits 1. -/
theorem test_shift_tap3 :
    endsWith (exec .shift (loadedWith "1000" 3 (some false))) (loadedWith "0001" 3 (some true)).reg [0x00, 0x01] = true := by
  decide
/-- Section 2.2: the first byte of the seed is 0xC9. -/
theorem test_shiftbyte :
    endsWith (present seeded [0x03]) (loadedWith "01011001001" 9 (some true)).reg [0x00, 0xC9] = true := by decide
/-- Section 2.2: L = 4, less than the eight steps. -/
theorem test_shiftbyte_short :
    endsWith (exec .shiftbyte (loadedWith "1011" 1 none)) (loadedWith "0011" 1 (some true)).reg [0x00, 0x23] = true := by
  decide
/-- Section 2.3. -/
theorem test_genks :
    endsWith (present seeded [0x04, 0x00, 0x00, 0x00, 0x0A]) (loadedWith "01100100100" 9 (some false)).reg
      ([0x00, 0x00, 0x00, 0x00, 0x0A] ++ symbols "1100100100") = true := by decide
/-- Section 2.3: GENKS -1 with nothing loaded is `NoRegister`. -/
theorem test_genks_priority : endsWith (exec (.genks (-1)) State.reset) Register.unloaded [0x04] = true := by decide
/-- Section 1.3, the source's example. -/
theorem test_combine :
    endsWith (exec (.combine (symbols "101") (symbols "1100")) State.reset) Register.unloaded
      ([0x00, 0x00, 0x00, 0x00, 0x04] ++ symbols "1001") = true := by decide
/-- Section 2.4: a non-binary symbol. -/
theorem test_combine_invalid :
    endsWith (exec (.combine (symbols "1021") (symbols "11")) seeded) seeded.reg [0x06] = true := by decide
/-- Section 2.4: a short keystream is padded on the left. -/
theorem test_encrypt :
    endsWith (exec (.encrypt (symbols "10110") (symbols "11")) seeded) seeded.reg
      ([0x00, 0x00, 0x00, 0x00, 0x05] ++ symbols "10101") = true := by decide
/-- Section 2.4: the empty keystream is checked before the symbols. -/
theorem test_encrypt_no_keystream :
    endsWith (exec (.encrypt (symbols "1a1") []) seeded) seeded.reg [0x03] = true := by decide
/-- Section 2.4: the plaintext with one leading '0'. -/
theorem test_decrypt :
    endsWith (exec (.decrypt (symbols "1001") (symbols "1100")) seeded) seeded.reg
      ([0x00, 0x00, 0x00, 0x00, 0x04] ++ symbols "0101") = true := by decide
/-- Section 2.4: both operands empty. -/
theorem test_decrypt_no_keystream : endsWith (exec (.decrypt [] []) State.reset) Register.unloaded [0x03] = true := by
  decide
/-- Section 2.4. -/
theorem test_combineb :
    endsWith (exec (.combineb [0x0F] [0x01, 0xF0]) State.reset) Register.unloaded
      [0x00, 0x00, 0x00, 0x00, 0x02, 0x01, 0xFF] = true := by decide
/-- Section 2.5: 0x5A XOR 0xC9. -/
theorem test_xorbyte :
    endsWith (present seeded [0x09, 0x5A]) (loadedWith "01011001001" 9 (some true)).reg [0x00, 0x93] = true := by decide
/-- Section 2.5: no Register. -/
theorem test_xorbyte_unloaded : endsWith (exec (.xorbyte 0x12) State.reset) Register.unloaded [0x04] = true := by decide
/-- Section 2.2: after one SHIFT from the seed RDLAST returns 1. -/
theorem test_rdlast :
    endsWith (exec .rdlast (loadedWith "11010000101" 9 (some true))) (loadedWith "11010000101" 9 (some true)).reg
      [0x00, 0x01] = true := by decide
/-- Section 2.2: `NoValue` directly after LOAD. -/
theorem test_rdlast_no_value : endsWith (exec .rdlast seeded) seeded.reg [0x07] = true := by decide
/-- R108's example frame. -/
theorem test_rdstate :
    endsWith (exec .rdstate (loadedWith "11010000101" 9 (some true))) (loadedWith "11010000101" 9 (some true)).reg
      ([0x00, 0x01, 0x00, 0x00, 0x00, 0x0B, 0x00, 0x00, 0x00, 0x09, 0x01, 0x01] ++ symbols "11010000101") = true := by
  decide
/-- Section 2.2: RDSTATE with nothing loaded. -/
theorem test_rdstate_unloaded :
    endsWith (exec .rdstate State.reset) Register.unloaded (0x00 :: List.replicate 11 0x00) = true := by decide
/-- Section 2.7: an illegal frame. -/
theorem test_illegal_frame : endsWith (present seeded [0xFF, 0x01, 0x02]) seeded.reg [0x08] = true := by decide

/-- Section 2.6: the image of one pixel row, its first pixel with an alpha channel. -/
theorem test_procimg :
    (match procImg [[⟨0x00, 0xFF, 0x12, some 0x80⟩]] (symbols "01101000010") 9 State.reset with
     | .done out t => decide (out = [[⟨0xC9, 0xC2, 0xAB, some 0x80⟩]]) &&
         decide (t.reg = (loadedWith "10110111001" 9 (some true)).reg)
     | _ => false) = true := by decide
/-- Section 2.6: a tap out of range, no output. -/
theorem test_procimg_invalid_tap :
    procImg [[⟨0x00, 0xFF, 0x12, none⟩]] (symbols "0110") 5 State.reset =
      .failed [0x02] { State.reset with responses := [[0x02]] } := by decide

/-- R152 with R100's corner case: LMAX = 2, a seed of four symbols, no output. -/
theorem test_procimg_oversize_seed :
    procImg [[⟨0x00, 0xFF, 0x12, none⟩]] (symbols "0110") 1 { State.reset with limits := ⟨some 2, none⟩ } =
      .failed [0x08] { State.reset with limits := ⟨some 2, none⟩, responses := [[0x08]] } := by decide

/-- R171 on an earlier Register: the run ends with the LOAD's fault, and GENKS is not issued. -/
theorem test_generate_keystream_invalid_seed :
    generateKeystream (symbols "01a1") 2 4 seeded = .failed [0x01] { seeded with responses := [[0x01]] } := by decide
/-- Section 2.3: the first ten keystream bits of the seed; the state of P3 after them. -/
theorem test_generate_keystream :
    generateKeystream (symbols "01101000010") 9 10 State.reset =
      .done (symbols "1100100100") { loadedWith "01100100100" 9 (some false) with
        responses := [[0x00], [0x00, 0x00, 0x00, 0x00, 0x0A] ++ symbols "1100100100"] } := by decide

/-- R73's examples. -/
theorem test_asm_load :
    asmText (.load (symbols "01101000010") 9) = ['L', 'O', 'A', 'D', ' ', '"', '0', '1', '1', '0', '1', '0', '0', '0',
      '0', '1', '0', '"', ',', ' ', '9'] := by decide
theorem test_asm_combineb :
    asmText (.combineb [0x0F] [0x01, 0xF0]) = ['C', 'O', 'M', 'B', 'I', 'N', 'E', 'B', ' ', '[', '0', 'x', '0', 'F', ']',
      ',', ' ', '[', '0', 'x', '0', '1', ',', ' ', '0', 'x', 'F', '0', ']'] := by decide

/-! ### Witnesses: the hypotheses of the obligations can be met -/

theorem seeded_sound : seeded.reg.Sound := by
  intro _
  decide

theorem tapAtLength_sound : (loadedWith "1011" 4 none).reg.Sound := by
  intro _
  decide

theorem zeros_sound : (loadedWith "0000" 2 none).reg.Sound := by
  intro _
  decide

theorem admitted (m n : Nat) (seed : List Symbol) (h : seed.length ≤ m) :
    AdmitsSeed { State.reset with limits := ⟨some m, some n⟩ } seed ∧
      AdmitsLength { State.reset with limits := ⟨some m, some n⟩ } n := by
  refine ⟨fun k hk => ?_, fun k hk => ?_⟩ <;> cases hk
  · exact h
  · exact Nat.le_refl n

theorem accepted : LoadAccepted (symbols "01101000010") 9 := by
  unfold LoadAccepted BitString
  decide

/-- The ends of LOAD's range of taps: 1 and the length of the seed. -/
theorem witness_LoadConstructsRegister :
    LoadAccepted (symbols "1011") 1 ∧ LoadAccepted (symbols "1011") 4 ∧ LoadAccepted (symbols "1") 1 := by
  unfold LoadAccepted BitString
  decide

theorem witness_InvalidSeedExactlyOnBadSeed :
    ((([] : List Symbol) = [] ∨ ∃ c ∈ ([] : List Symbol), c ≠ sym0 ∧ c ≠ sym1)) ∧
      (symbols "01a" = [] ∨ ∃ c ∈ symbols "01a", c ≠ sym0 ∧ c ≠ sym1) ∧
      (symbols "/" = [] ∨ ∃ c ∈ symbols "/", c ≠ sym0 ∧ c ≠ sym1) ∧
      AdmitsSeed { State.reset with limits := ⟨some 3, some 0⟩ } (symbols "01a") :=
  ⟨by decide, by decide, by decide, (admitted 3 0 _ (by decide)).1⟩

theorem witness_InvalidTapExactlyOutsideRange :
    symbols "0110" ≠ [] ∧ (∀ c ∈ symbols "0110", c = sym0 ∨ c = sym1) ∧
      ((0 : Int) < 1 ∨ ((symbols "0110").length : Int) < 0) ∧ ((5 : Int) < 1 ∨ ((symbols "0110").length : Int) < 5) ∧
      ¬ ((4 : Int) < 1 ∨ ((symbols "0110").length : Int) < 4) ∧
      AdmitsSeed { State.reset with limits := ⟨some 4, some 0⟩ } (symbols "0110") :=
  ⟨by decide, by decide, by decide, by decide, by decide, (admitted 4 0 _ (by decide)).1⟩

theorem witness_ShiftMovesAndFeeds : seeded.reg.Sound ∧ seeded.reg.loaded = true := ⟨seeded_sound, rfl⟩
theorem witness_ShiftbyteIsEightShifts : seeded.reg.Sound ∧ seeded.reg.loaded = true := ⟨seeded_sound, rfl⟩
theorem witness_XorbyteMasksWithShiftbyte : seeded.reg.Sound ∧ seeded.reg.loaded = true := ⟨seeded_sound, rfl⟩

theorem witness_RdlastReturnsLastBit :
    seeded.reg.loaded = true ∧ seeded.reg.lastBit = none ∧ (loadedWith "01" 1 (some true)).reg.lastBit = some true := by
  decide

theorem witness_RdstateReportsRecord :
    (seeded.reg.Sound ∧ seeded.reg.loaded = true) ∧ (State.reset.reg.Sound ∧ State.reset.reg.loaded = false) :=
  ⟨⟨seeded_sound, rfl⟩, ⟨fun h => absurd h (by decide), rfl⟩⟩

theorem witness_NoRegisterBeforeLoad : State.reset.reg.loaded = false ∧ ((Instr.shift = .shift)) := by decide

/-- A sequence that extends the register "10", tap 1: 1, 0, 1, 1, 0, 1, 1, 0, ... (section 2.2: period three). -/
def sigma (k : Nat) : Bit := k % 3 != 1

theorem witness_GenksFollowsRecurrence :
    (loadedWith "10" 1 none).reg.Sound ∧ (loadedWith "10" 1 none).reg.loaded = true ∧ 6 < 2 ^ 31 ∧
      (∀ i : Nat, i < 2 → (loadedWith "10" 1 none).reg.bits[i]? = some (sigma i)) ∧
      (∀ j : Nat, sigma (2 + j) = (sigma j ^^ sigma (j + 2 - (1 : Int).toNat))) := by
  refine ⟨by intro _; decide, rfl, by decide, by decide, fun j => ?_⟩
  have h : j % 3 = 0 ∨ j % 3 = 1 ∨ j % 3 = 2 := by omega
  have e1 : (2 + j) % 3 = (j % 3 + 2) % 3 := by omega
  have e2 : (j + 2 - 1) % 3 = (j % 3 + 1) % 3 := by omega
  simp only [sigma, Int.toNat_one, e1, e2]
  rcases h with h | h | h <;> rw [h] <;> decide

theorem witness_GenksIsRepeatedShift : seeded.reg.Sound ∧ seeded.reg.loaded = true ∧ 0 < 2 ^ 31 ∧ 2 ^ 31 - 1 < 2 ^ 31 :=
  ⟨seeded_sound, rfl, by decide, by decide⟩
theorem witness_GenksRefusesNegativeSteps : seeded.reg.loaded = true ∧ (-1 : Int) < 0 := by decide
theorem witness_GenksContinues : seeded.reg.Sound ∧ seeded.reg.loaded = true ∧ 4 + 6 < 2 ^ 31 :=
  ⟨seeded_sound, rfl, by decide⟩
theorem witness_ByteCommandsConsumeKeystream : seeded.reg.Sound ∧ seeded.reg.loaded = true ∧ 8 * 6 < 2 ^ 31 :=
  ⟨seeded_sound, rfl, by decide⟩
theorem witness_TapAtLengthEmitsZeros :
    (loadedWith "1011" 4 none).reg.Sound ∧ (loadedWith "1011" 4 none).reg.loaded = true ∧
      (loadedWith "1011" 4 none).reg.tap = (loadedWith "1011" 4 none).reg.L ∧ 5 < 2 ^ 31 :=
  ⟨tapAtLength_sound, rfl, by decide, by decide⟩
theorem witness_ZeroRegisterStaysZero :
    (loadedWith "0000" 2 none).reg.Sound ∧ (loadedWith "0000" 2 none).reg.loaded = true ∧
      (∀ b ∈ (loadedWith "0000" 2 none).reg.bits, b = false) ∧ 6 < 2 ^ 31 :=
  ⟨zeros_sound, rfl, by decide, by decide⟩
theorem witness_KeystreamDeterminedBySeed :
    LoadAccepted (symbols "01101000010") 9 ∧ (symbols "01101000010").length < 2 ^ 32 ∧ (9 : Int) < 2 ^ 31 ∧
      8 < 2 ^ 31 ∧ AdmitsSeed { State.reset with limits := ⟨some 11, some 8⟩ } (symbols "01101000010") ∧
      AdmitsLength { State.reset with limits := ⟨some 11, some 8⟩ } 8 :=
  ⟨accepted, by decide, by decide, by decide, admitted 11 8 _ (by decide)⟩

theorem witness_CombineXorsPaddedStrings :
    (∀ c ∈ symbols "101", c = sym0 ∨ c = sym1) ∧ (∀ c ∈ symbols "1100", c = sym0 ∨ c = sym1) ∧
      (symbols "101").length < 2 ^ 32 ∧ (symbols "1100").length < 2 ^ 32 ∧ 3 < max 3 4 := by decide

/-- One position for each of the four clauses: padding and text under a longer keystream, and both under a shorter. -/
theorem witness_PaddingAlignsLastCharacters :
    (∀ c ∈ symbols "101", c = sym0 ∨ c = sym1) ∧ (∀ c ∈ symbols "1100", c = sym0 ∨ c = sym1) ∧
      symbols "1100" ≠ [] ∧ symbols "101" ≠ [] ∧
      (3 ≤ 4 ∧ 0 < 4 - 3) ∧ (3 ≤ 4 ∧ 4 - 3 ≤ 1 ∧ 1 < 4) ∧ (3 < 4 ∧ 0 < 4 - 3) ∧ (3 < 4 ∧ 4 - 3 ≤ 1 ∧ 1 < 4) := by decide

theorem witness_NonBinaryOperandRefused :
    (∃ c ∈ symbols "1021" ++ symbols "11", c ≠ sym0 ∧ c ≠ sym1) ∧ symbols "11" ≠ [] := by decide
theorem witness_EmptyKeystreamRejected :
    (∀ c ∈ symbols "101", c = sym0 ∨ c = sym1) ∧ (symbols "101").length < 2 ^ 32 := by decide
theorem witness_DecryptUndoesEncrypt :
    (∀ c ∈ symbols "101", c = sym0 ∨ c = sym1) ∧ (∀ c ∈ symbols "1100", c = sym0 ∨ c = sym1) ∧ symbols "1100" ≠ [] ∧
      (symbols "101").length < 2 ^ 32 ∧ (symbols "1100").length < 2 ^ 32 := by decide
theorem witness_CombineAlgebra :
    (∀ c ∈ symbols "0011", c = sym0 ∨ c = sym1) ∧ (symbols "0011").length < 2 ^ 32 ∧ 6 < 2 ^ 32 := by decide
theorem witness_CombineAssociative :
    (∀ c ∈ symbols "1" ++ symbols "011" ++ symbols "10", c = sym0 ∨ c = sym1) ∧ (symbols "1").length < 2 ^ 32 ∧
      (symbols "011").length < 2 ^ 32 ∧ (symbols "10").length < 2 ^ 32 ∧ 2 < max 1 (max 3 2) := by decide
theorem witness_CombinebIsCombineOfBits :
    8 * ([0x0F] : List Byte).length < 2 ^ 32 ∧ 8 * ([0x01, 0xF0] : List Byte).length < 2 ^ 32 := by decide
theorem witness_CombinebXorsPaddedBytes :
    ([0x0F] : List Byte).length < 2 ^ 32 ∧ ([0x01, 0xF0] : List Byte).length < 2 ^ 32 ∧ 1 < max 1 2 := by decide

theorem witness_TextCipherRoundTrip :
    LoadAccepted (symbols "01101000010") 9 ∧ (symbols "01101000010").length < 2 ^ 32 ∧ (9 : Int) < 2 ^ 31 ∧
      (∀ c ∈ symbols "10110011", c = sym0 ∨ c = sym1) ∧ symbols "10110011" ≠ [] ∧
      (symbols "10110011").length < 2 ^ 31 ∧
      AdmitsSeed { State.reset with limits := ⟨some 11, some 8⟩ } (symbols "01101000010") ∧
      AdmitsLength { State.reset with limits := ⟨some 11, some 8⟩ } (symbols "10110011").length :=
  ⟨accepted, by decide, by decide, by decide, by decide, by decide, admitted 11 8 _ (by decide)⟩

theorem witness_ProcImgMasksChannels :
    LoadAccepted (symbols "01101000010") 9 ∧
      AdmitsSeed { State.reset with limits := ⟨some 11, some 0⟩ } (symbols "01101000010") ∧
      (symbols "01101000010").length < 2 ^ 32 ∧ (9 : Int) < 2 ^ 31 :=
  ⟨accepted, (admitted 11 0 _ (by decide)).1, by decide, by decide⟩
theorem witness_ProcImgTwiceIsIdentity :
    LoadAccepted (symbols "1011") 4 ∧ AdmitsSeed { State.reset with limits := ⟨some 4, some 0⟩ } (symbols "1011") ∧
      AdmitsSeed State.reset (symbols "1011") ∧ (symbols "1011").length < 2 ^ 32 ∧ (4 : Int) < 2 ^ 31 :=
  ⟨witness_LoadConstructsRegister.2.1, (admitted 4 0 _ (by decide)).1, (fun _ h => nomatch h), by decide, by decide⟩
theorem witness_ProcImgIssuesItsCommands :
    procImg [[⟨0xC9, 0x00, 0xFF, none⟩]] (symbols "1") 1 State.reset =
      .done [[⟨0xC9, 0x00, 0xFF, none⟩]]
        ⟨⟨true, 1, [false], 1, some false⟩, .unbounded, [], [[0x00], [0x00, 0xC9], [0x00, 0x00], [0x00, 0xFF]]⟩ := by
  decide

theorem witness_FaultChangesNothing :
    exec .rdlast seeded = .next (seeded.answered seeded.reg [0x07]) ∧
      (seeded.answered seeded.reg [0x07]).responses = seeded.responses ++ [[0x07]] ∧ isFaultFrame [0x07] = true :=
  ⟨rfl, rfl, rfl⟩
theorem witness_FaultRepeats :
    exec .shift State.reset = .next (State.reset.answered State.reset.reg [0x04]) ∧
      (State.reset.answered State.reset.reg [0x04]).responses = State.reset.responses ++ [[0x04]] ∧
      isFaultFrame [0x04] = true := ⟨rfl, rfl, rfl⟩
theorem witness_OneResponsePerCommand : ∃ t, exec .shift State.reset = .next t := ⟨_, rfl⟩
theorem witness_PureCommandsLeaveRecord :
    (isPure (.combine [] []) = true ∧ ∃ t, exec (.combine [] []) seeded = .next t) ∧
      (isPure (.genks 0) = true ∧ ∃ t, exec (.genks 0) seeded = .next t) := ⟨⟨rfl, _, rfl⟩, ⟨rfl, _, rfl⟩⟩
theorem witness_OnlyLoadWritesTap : isLoad .shift = false ∧ ∃ t, exec .shift seeded = .next t := ⟨rfl, _, rfl⟩

theorem witness_LoadedRegisterInvariants :
    LoadAccepted (symbols "01101000010") 9 ∧
      Instr.wellFormed State.reset.limits (.load (symbols "01101000010") 9) = true ∧
      (∀ i ∈ [Instr.rdlast, .load [] 1, .genks 4, .genks (-1)], Instr.wellFormed State.reset.limits i = true) ∧
      (∀ i ∈ [Instr.rdlast, .load [] 1, .genks 4, .genks (-1)], ∀ seed' tap', i = .load seed' tap' →
        ¬ LoadAccepted seed' tap') := by
  refine ⟨accepted, by decide, by decide, fun i hi seed' tap' h => ?_⟩
  subst h
  simp only [List.mem_cons, reduceCtorEq, Instr.load.injEq, List.not_mem_nil, or_false, false_or] at hi
  exact fun hl => hl.1 hi.1

theorem witness_LastBitInfluencesNoResult : readsLast .shift = false ∧ ∃ t, exec .shift seeded = .next t :=
  ⟨rfl, _, rfl⟩
theorem witness_UnloadedFieldsAreNotRead :
    State.reset.reg.loaded = false ∧ (⟨false, 3, [true], 7, some true⟩ : Register).loaded = false ∧
      (∃ t, exec .rdstate State.reset = .next t) ∧ ∃ t, exec (.load (symbols "1") 1) State.reset = .next t :=
  ⟨rfl, rfl, ⟨_, rfl⟩, ⟨_, rfl⟩⟩

theorem witness_DecodeOfEncode : Instr.wellFormed ⟨some 2, some 2⟩ (.load (symbols "01") 9) = true := by decide
theorem witness_EncodeOfDecode : decodeFrame ⟨some 2, some 2⟩ [0x09, 0x5A] = .ok (.xorbyte 0x5A) := by decide
theorem witness_IllegalOpcodesSelectNothing :
    ((0x00#8 = 0x00#8 ∨ 0x0C ≤ (0x00#8).toNat) ∧ (0x0C#8 = 0x00#8 ∨ 0x0C ≤ (0x0C#8).toNat)) ∧
      (1 ≤ (0x01#8).toNat ∧ (0x01#8).toNat ≤ 0x0B) ∧ (1 ≤ (0x0B#8).toNat ∧ (0x0B#8).toNat ≤ 0x0B) ∧
      decodeFrame .unbounded [0x03#8] = .ok .shiftbyte ∧ decodeFrame .unbounded [0x0B#8] = .ok .rdstate := by decide
theorem witness_FrameLengthIsExact :
    decodeFrame .unbounded [0x09, 0x5A] = .ok (.xorbyte 0x5A) ∧ ([0x00] : List Byte) ≠ [] ∧
      0 < 1 ∧ 1 < ([0x09, 0x5A] : Frame).length := by decide
theorem witness_OversizeOperandsRefused :
    fitsI32 3 = true ∧ (⟨some 2, some 2⟩ : Limits).lmax = some 2 ∧ (⟨some 2, some 2⟩ : Limits).nmax = some 2 ∧
      2 < (symbols "011").length ∧ ((2 : Nat) : Int) < 3 ∧ (symbols "011").length < 2 ^ 32 := by decide

theorem witness_StepRunsDecodedCommand :
    (State.reset.withFetchWord 8 2).host = [.command [0x02]] ∧
      decodeFrame (State.reset.withFetchWord 8 2).limits [0x02] = .ok .shift := by decide
theorem witness_IllegalFrameAnswered :
    ({ State.reset with host := [.command [0x00]] } : State).host = [.command [0x00]] ∧
      decodeFrame State.reset.limits [0x00] = .error .illegalOpcode := by decide
theorem witness_ResetEventAndIdle :
    ({ seeded with host := [.reset] } : State).host = [.reset] ∧ State.reset.host = [] := by decide

/-- A state of a run: a loaded Register, a bounded implementation, responses of both kinds. -/
def running : State := { seeded with limits := ⟨some 64, some 64⟩, responses := [[0x04], [0x00]] }

theorem witness_StepNeverStopsAndKeepsInv : running.Inv := ⟨seeded_sound, by decide⟩

theorem witness_CommandsRunInHostOrder :
    (∀ i ∈ [Instr.shift, .rdlast], Instr.wellFormed .unbounded i = true) ∧
      ({ seeded with host := [.command [0x02], .command [0x0A]] } : State).host =
        [Instr.shift, .rdlast].map (fun i => HostEvent.command (encode i)) ++ [] ∧
      issueAll [.shift, .rdlast] { seeded with host := [] } =
        some ([[0x00, 0x01], [0x00, 0x01]],
          { loadedWith "11010000101" 9 (some true) with responses := [[0x00, 0x01], [0x00, 0x01]] }) := by decide

theorem witness_GenerateKeystreamFailsOnBadSteps :
    LoadAccepted (symbols "01101000010") 9 ∧
      AdmitsSeed { State.reset with limits := ⟨some 11, some 8⟩ } (symbols "01101000010") ∧ (-1 : Int) < 0 ∧
      (((8 : Nat) : Int) < 9) := ⟨accepted, (admitted 11 8 _ (by decide)).1, by decide, by decide⟩
/-- Within the bounds and above them. -/
theorem witness_IssuedCommandIsItsFrame :
    Instr.wellFormed .unbounded (.load (symbols "01") 1) = true ∧
      Instr.withinLimits ⟨some 2, none⟩ (.load (symbols "01") 1) = true ∧
      Instr.withinLimits ⟨some 1, none⟩ (.load (symbols "01") 1) = false := by decide
theorem witness_ProcImgRefusesOversizeSeed :
    ({ State.reset with limits := ⟨some 2, none⟩ } : State).limits.lmax = some 2 ∧ 2 < (symbols "011").length := by
  decide
theorem witness_DocumentFaultNumbers :
    (symbols "01a" = [] ∨ ∃ c ∈ symbols "01a", c ≠ sym0 ∧ c ≠ sym1) ∧ symbols "0110" ≠ [] ∧
      (∀ c ∈ symbols "0110", c = sym0 ∨ c = sym1) ∧ ((5 : Int) < 1 ∨ ((symbols "0110").length : Int) < 5) := by decide

end Sys2Proof.Tests
end

/-! What a command does to a loaded register is a number of chained steps (R102, R120): lists of commands after an
accepted LOAD are then one chain, and R27 is a fact about chains. -/

namespace Sys2Proof.Machine

/-! ### Chained steps and `lastBit` -/

/-- `lastBit` after a chain is the chain's last new bit, and what it was after no step (R24, R102). -/
theorem Register.shifts_lastBit {n : Nat} {r r' : Register} {bs : List Bit}
    (h : Register.shifts n r = some (bs, r')) : r'.lastBit = bs.getLast?.or r.lastBit := by
  induction n generalizing r bs with
  | zero => cases h; rfl
  | succ n ih =>
    rw [Register.shifts_succ] at h
    obtain ⟨⟨b, r1⟩, h1, h⟩ := Option.bind_eq_some_iff.1 h
    obtain ⟨⟨cs, r2⟩, h2, h⟩ := Option.map_eq_some_iff.1 h
    cases h
    obtain ⟨d, t, -, -, -, rfl⟩ := Register.shift_eq_some.1 h1
    rw [ih h2, Register.feed_lastBit, List.getLast?_cons]
    cases cs.getLast? <;> rfl

/-- On a register without a last bit, a chain leaves *no value* exactly when it has no step. -/
theorem Register.shifts_lastBit_eq_none {n : Nat} {r r' : Register} {bs : List Bit}
    (h : Register.shifts n r = some (bs, r')) (h0 : r.lastBit = none) : r'.lastBit = none ↔ n = 0 := by
  obtain ⟨hlen, -⟩ := Register.shifts_frame h
  rw [Register.shifts_lastBit h, h0, Option.or_none, List.getLast?_eq_none_iff, ← hlen, List.length_eq_zero_iff]

/-- A step is the chain of length one. -/
theorem Register.shifts_one {r r' : Register} {b : Bit} (h : r.shift = some (b, r')) :
    Register.shifts 1 r = some ([b], r') := by
  simp [Register.shifts_succ, Register.shifts_zero, h]

/-- Two chains in order are one chain of their total length (R121). -/
theorem Register.shifts_trans {m n : Nat} {r r1 r2 : Register} {bs cs : List Bit}
    (h1 : Register.shifts m r = some (bs, r1)) (h2 : Register.shifts n r1 = some (cs, r2)) :
    Register.shifts (m + n) r = some (bs ++ cs, r2) := by
  simp [Register.shifts_add, h1, h2]

/-! ### Commands that leave the record alone -/

/-- A LOAD that is not accepted is answered with a fault (R171, R172). -/
theorem execLoad_refused {seed : List Symbol} {tap : Int} (s : State) (h : ¬ LoadAccepted seed tap) :
    ∃ f, execLoad seed tap s = .next (s.answered s.reg f) := by
  by_cases h0 : seed = []
  · exact ⟨_, execLoad_invalidSeed (.inl h0) tap s⟩
  rcases hb : bitsOf seed with _ | bs
  · exact ⟨_, execLoad_invalidSeed (.inr (bitsOf_eq_none.1 hb)) tap s⟩
  obtain rfl := bitsOf_eq_some.1 hb
  have hne : bs ≠ [] := by rintro rfl; exact h0 rfl
  have hr : tap < 1 ∨ (bs.length : Int) < tap := by
    by_contra hr
    exact h ⟨h0, bitString_symsOf bs, by omega, by simp; omega⟩
  exact ⟨_, execLoad_invalidTap s hne hr⟩

/-- COMBINE's check and result always answer operands that a frame carries. -/
theorem combineStrings_answers {a b : List Symbol} (s : State) (ha : a.length < 2 ^ 32) (hb : b.length < 2 ^ 32) :
    ∃ f, combineStrings a b s = .next (s.answered s.reg f) := by
  rcases hx : bitsOf a with _ | x
  · obtain ⟨c, hc, hn⟩ := bitsOf_eq_none.1 hx
    exact ⟨_, combineStrings_nonBinary s ⟨c, List.mem_append_left b hc, hn⟩⟩
  rcases hy : bitsOf b with _ | y
  · obtain ⟨c, hc, hn⟩ := bitsOf_eq_none.1 hy
    exact ⟨_, combineStrings_nonBinary s ⟨c, List.mem_append_right a hc, hn⟩⟩
  obtain rfl := bitsOf_eq_some.1 hx
  obtain rfl := bitsOf_eq_some.1 hy
  exact ⟨_, combineStrings_symsOf s (by simpa using ha) (by simpa using hb)⟩

/-- ENCRYPT and DECRYPT always answer operands that a frame carries. -/
theorem withKeystream_answers {p k : List Symbol} (s : State) (hp : p.length < 2 ^ 32) (hk : k.length < 2 ^ 32) :
    ∃ f, withKeystream k s (combineStrings p k s) = .next (s.answered s.reg f) := by
  by_cases h : k = []
  · subst h
    exact ⟨_, withKeystream_nil s _⟩
  · rw [withKeystream_of_ne h]
    exact combineStrings_answers s hp hk

theorem execCombineb_answers {a b : List Byte} (s : State) (ha : a.length < 2 ^ 32) (hb : b.length < 2 ^ 32) :
    ∃ f, execCombineb a b s = .next (s.answered s.reg f) :=
  ⟨_, answer_of_frame (frame_bytes (by simp; omega)) s⟩

theorem execRdlast_answers {s : State} (hl : s.reg.loaded = true) :
    ∃ f, execRdlast s = .next (s.answered s.reg f) := by
  rw [execRdlast, withRegister_of_loaded hl]
  rcases s.reg.lastBit with _ | b
  · exact ⟨_, raise_eq .noValue s⟩
  · exact ⟨_, answer_of_frame (frame_bit b) s⟩

/-- The report of a sound loaded register fits its frame (R71, R108). -/
theorem Register.Sound.report_frame {r : Register} (h : r.Sound) (hl : r.loaded = true) :
    ∃ f, r.report.frame = some f := by
  obtain ⟨hlen, h1, hL, ht1, ht2, ht3, -⟩ := h hl
  have hfit : fitsU32 r.L = true := by simpa [fitsU32] using hL
  have htap : fitsI32 r.tap = true := fitsI32_iff.2 ⟨by omega, ht3⟩
  simp [Register.report, Response.frame, hl, hfit, htap, hlen]

/-! ### Every command on a loaded register is a chain of steps -/

/-- The two operands of a format `SS` command that a frame carries (R62, R63). -/
theorem lengths_of_okLength {bound : Option Nat} {a b : List Byte}
    (h : (okLength bound a.length && okLength bound b.length) = true) : a.length < 2 ^ 32 ∧ b.length < 2 ^ 32 := by
  obtain ⟨ha, hb⟩ := Bool.and_eq_true_iff.1 h
  exact ⟨(okLength_iff.1 ha).1, (okLength_iff.1 hb).1⟩

/-- The number of steps a command runs on a loaded register (R102, R104, R120, R150). -/
def stepCount : Instr → Nat
  | .shift => 1
  | .shiftbyte | .xorbyte _ => 8
  | .genks steps => steps.toNat
  | _ => 0

theorem stepCount_eq_zero {i : Instr} : stepCount i = 0 ↔ stepsRegister i = false := by
  cases i <;> simp [stepCount, stepsRegister]
  case genks steps => omega

/-- The command is answered, and leaves the record as the chain of its steps does. -/
def RunsItsSteps (i : Instr) (s : State) : Prop :=
  ∃ bs r f, Register.shifts (stepCount i) s.reg = some (bs, r) ∧ exec i s = .next (s.answered r f)

theorem RunsItsSteps.of_unchanged {i : Instr} {s : State} (h0 : stepCount i = 0)
    (h : ∃ f, exec i s = .next (s.answered s.reg f)) : RunsItsSteps i s := by
  obtain ⟨f, hf⟩ := h
  exact ⟨[], s.reg, f, by rw [h0, Register.shifts_zero], hf⟩

/-- A command that ends by `advance` after its steps, with a response that has a frame. -/
theorem RunsItsSteps.of_advance {α : Type} {i : Instr} {s : State} {bs : List Bit} {v : α} {r : Register}
    {reply : α → Response} {f : Frame} (hr : Register.shifts (stepCount i) s.reg = some (bs, r))
    (hex : exec i s = advance (some (v, r)) reply s) (hf : (reply v).frame = some f) : RunsItsSteps i s :=
  ⟨bs, r, f, hr, hex.trans (advance_some s hf)⟩

theorem shift_runsItsSteps {s : State} (hl : s.reg.loaded = true) (hs : s.reg.Sound) : RunsItsSteps .shift s := by
  obtain ⟨d, t, -, -, hsh⟩ := hs.shift hl
  refine .of_advance (v := d ^^ t) (reply := .bit) (Register.shifts_one hsh) ?_ (frame_bit _)
  rw [exec, execShift, withRegister_of_loaded hl, hsh]

theorem shiftbyte_runsItsSteps {s : State} (hl : s.reg.loaded = true) (hs : s.reg.Sound) :
    RunsItsSteps .shiftbyte s := by
  obtain ⟨bs, r, hr, -⟩ := hs.shifts hl 8
  refine .of_advance (v := packByte bs) (reply := .byte) hr ?_ (frame_byte _)
  rw [exec, execShiftbyte, withRegister_of_loaded hl, Register.shiftByte_eq, hr, Option.map_some]

theorem xorbyte_runsItsSteps {s : State} (v : Byte) (hl : s.reg.loaded = true) (hs : s.reg.Sound) :
    RunsItsSteps (.xorbyte v) s := by
  obtain ⟨bs, r, hr, -⟩ := hs.shifts hl 8
  refine .of_advance (v := packByte bs) (reply := fun value => .byte (v ^^^ value)) hr ?_ (frame_byte _)
  rw [exec, execXorbyte, withRegister_of_loaded hl, Register.shiftByte_eq, hr, Option.map_some]

/-- GENKS runs `steps` steps, and none when `steps` is negative and refused (R120, R175). -/
theorem genks_runsItsSteps {s : State} {steps : Int} (hfit : steps < 2 ^ 31) (hl : s.reg.loaded = true)
    (hs : s.reg.Sound) : RunsItsSteps (.genks steps) s := by
  by_cases hneg : steps < 0
  · refine .of_unchanged (Int.toNat_of_nonpos hneg.le) ⟨[Status.invalidSteps.code], ?_⟩
    rw [exec, execGenks, withRegister_of_loaded hl, if_pos hneg, raise_eq]
  · obtain ⟨bs, r, hr, hlen, -⟩ := hs.shifts hl steps.toNat
    have hstr : (symsOf bs).length < 2 ^ 32 := by rw [symsOf_length]; omega
    refine .of_advance (reply := fun bs => .str (symsOf bs)) hr ?_ (frame_str hstr)
    rw [exec, execGenks, withRegister_of_loaded hl, if_neg hneg, hr]

/-- On a sound loaded register every command that fits a frame and constructs no new Register is answered and runs
its steps. -/
theorem exec_runsItsSteps {i : Instr} {s : State} (hwf : i.wellFormed .unbounded = true)
    (hno : ∀ seed tap, i = .load seed tap → ¬ LoadAccepted seed tap) (hl : s.reg.loaded = true) (hs : s.reg.Sound) :
    RunsItsSteps i s := by
  cases i with
  | load seed tap => exact .of_unchanged rfl (execLoad_refused s (hno seed tap rfl))
  | shift => exact shift_runsItsSteps hl hs
  | shiftbyte => exact shiftbyte_runsItsSteps hl hs
  | genks steps =>
    obtain ⟨hfit, -⟩ := Bool.and_eq_true_iff.1 hwf
    exact genks_runsItsSteps (fitsI32_iff.1 hfit).2 hl hs
  | combine a b =>
    obtain ⟨ha, hb⟩ := lengths_of_okLength hwf
    exact .of_unchanged rfl (combineStrings_answers s ha hb)
  | encrypt p k =>
    obtain ⟨hp, hk⟩ := lengths_of_okLength hwf
    exact .of_unchanged rfl (withKeystream_answers s hp hk)
  | decrypt c k =>
    obtain ⟨hc, hk⟩ := lengths_of_okLength hwf
    exact .of_unchanged rfl (withKeystream_answers s hc hk)
  | combineb a b =>
    obtain ⟨ha, hb⟩ := lengths_of_okLength hwf
    exact .of_unchanged rfl (execCombineb_answers s ha hb)
  | xorbyte v => exact xorbyte_runsItsSteps v hl hs
  | rdlast => exact .of_unchanged rfl (execRdlast_answers hl)
  | rdstate =>
    obtain ⟨f, hf⟩ := hs.report_frame hl
    exact .of_unchanged rfl ⟨f, answer_of_frame hf s⟩

/-- Issued commands that construct no new Register are all answered, and together run one chain of steps. -/
theorem issueAll_runs_steps {cmds : List Instr} {s : State} (hwf : ∀ i ∈ cmds, i.wellFormed s.limits = true)
    (hno : ∀ i ∈ cmds, ∀ seed tap, i = .load seed tap → ¬ LoadAccepted seed tap) (hl : s.reg.loaded = true)
    (hs : s.reg.Sound) :
    ∃ fs t bs, issueAll cmds s = some (fs, t) ∧ Register.shifts (cmds.map stepCount).sum s.reg = some (bs, t.reg) := by
  induction cmds generalizing s with
  | nil => exact ⟨[], s, [], issueAll_nil s, Register.shifts_zero s.reg⟩
  | cons i is ih =>
    rw [List.forall_mem_cons] at hwf hno
    obtain ⟨hfit, hlim⟩ := wellFormed_iff.1 hwf.1
    obtain ⟨bs, r, f, hr, hex⟩ := exec_runsItsSteps hfit hno.1 hl hs
    obtain ⟨-, hloaded, -, -, hsound⟩ := Register.shifts_frame hr
    obtain ⟨fs, t, cs, hall, ht⟩ := ih (s := s.answered r f) hwf.2 hno.2 (hloaded.trans hl) (hsound hs)
    refine ⟨f :: fs, t, bs ++ cs, ?_, Register.shifts_trans hr ht⟩
    simp [issueAll_cons, issue_of_exec hlim hex, hall]

theorem sum_stepCount_eq_zero {cmds : List Instr} :
    (cmds.map stepCount).sum = 0 ↔ ∀ i ∈ cmds, stepsRegister i = false := by
  simp [List.sum_eq_zero_iff, stepCount_eq_zero]

/-! ### R27 along a run -/

/-- An accepted LOAD that a frame carries constructs a sound Register of the seed's length (R100). -/
theorem load_constructs_sound {seed : List Symbol} {tap : Int} (s : State) (h : LoadAccepted seed tap)
    (hwf : Instr.wellFormed .unbounded (.load seed tap) = true) :
    ∃ bs, bs.length = seed.length ∧ (Register.construct bs tap).Sound ∧
      exec (.load seed tap) s = .next (s.answered (Register.construct bs tap) [0x00#8]) := by
  obtain ⟨hne, hbin, h1, h2⟩ := h
  obtain ⟨hlen, htap⟩ := Bool.and_eq_true_iff.1 hwf
  obtain ⟨bs, rfl⟩ := hbin.exists_bits
  rw [symsOf_length] at h2 hlen ⊢
  have hb : bs ≠ [] := by rintro rfl; exact hne rfl
  exact ⟨bs, rfl, Register.construct_sound hb (okLength_iff.1 hlen).1 h1 h2 (fitsI32_iff.1 htap).2,
    execLoad_symsOf s hb h1 h2⟩

/-- Settles O36: the commands after the LOAD run one chain of steps on the Register it constructs; a chain keeps R27,
`L` and `tap`, and leaves `lastBit` without a value exactly when it is empty. -/
theorem loadedRegisterInvariants : Obligations.LoadedRegisterInvariants := by
  intro seed tap cmds s hacc hwf hcmds hno
  obtain ⟨hfit, hlim⟩ := wellFormed_iff.1 hwf
  obtain ⟨bs, hbs, hsound, hload⟩ := load_constructs_sound s hacc hfit
  obtain ⟨fs, t, cs, hall, ht⟩ :=
    issueAll_runs_steps (s := s.answered (Register.construct bs tap) [0x00#8]) hcmds hno rfl hsound
  obtain ⟨-, hl, hL, htap, hkeep⟩ := Register.shifts_frame ht
  obtain ⟨hlen, hL1, -, ht1, ht2, -, -⟩ := hkeep hsound hl
  refine ⟨[0x00#8] :: fs, t, ?_, hl, hlen, hL1, ht1, ht2, hL.trans hbs, htap, ?_⟩
  · simp [issueAll_cons, issue_of_exec hlim hload, hall]
  · exact (Register.shifts_lastBit_eq_none ht rfl).trans sum_stepCount_eq_zero

end Sys2Proof.Machine

/-! The faults of the commands (60_exceptions.md): `Raises` says which fault a command raises in which state, once, and
`exec_eq_fault_iff` that `exec` answers a fault exactly so; `exec_answersOk` says how every other command ends. -/

namespace Sys2Proof.Machine

/-! ### The faults of each command -/

/-- The commands that need a Register (R174). -/
def needsRegister : Instr → Bool
  | .shift | .shiftbyte | .genks _ | .xorbyte _ | .rdlast => true
  | _ => false

/-- The fault that a command raises (R171 to R175, R136, R107), the first in the order of R180. -/
inductive Raises (s : State) : Instr → Status → Prop
  | invalidSeed {seed : List Symbol} {tap : Int} (hseed : seed = [] ∨ ∃ c ∈ seed, c ≠ sym0 ∧ c ≠ sym1) :
      Raises s (.load seed tap) .invalidSeed
  | invalidTap {seed : List Symbol} {tap : Int} (hne : seed ≠ []) (hbin : BitString seed)
      (htap : tap < 1 ∨ (seed.length : Int) < tap) : Raises s (.load seed tap) .invalidTap
  | encryptKeystream {p : List Symbol} : Raises s (.encrypt p []) .keystreamUnavailable
  | decryptKeystream {c : List Symbol} : Raises s (.decrypt c []) .keystreamUnavailable
  | noRegister {i : Instr} (hi : needsRegister i = true) (hl : s.reg.loaded = false) : Raises s i .noRegister
  | invalidSteps {steps : Int} (hl : s.reg.loaded = true) (hneg : steps < 0) : Raises s (.genks steps) .invalidSteps
  | combineOperand {a b : List Symbol} (hbad : ∃ c ∈ a ++ b, c ≠ sym0 ∧ c ≠ sym1) :
      Raises s (.combine a b) .invalidOperand
  | encryptOperand {p k : List Symbol} (hk : k ≠ []) (hbad : ∃ c ∈ p ++ k, c ≠ sym0 ∧ c ≠ sym1) :
      Raises s (.encrypt p k) .invalidOperand
  | decryptOperand {c k : List Symbol} (hk : k ≠ []) (hbad : ∃ x ∈ c ++ k, x ≠ sym0 ∧ x ≠ sym1) :
      Raises s (.decrypt c k) .invalidOperand
  | noValue (hl : s.reg.loaded = true) (hnone : s.reg.lastBit = none) : Raises s .rdlast .noValue

theorem Raises.ne_ok {s : State} {i : Instr} {st : Status} (h : Raises s i st) : st ≠ .ok := by
  cases h <;> decide

theorem raises_invalidSeed_iff {s : State} {i : Instr} :
    Raises s i .invalidSeed ↔
      ∃ seed tap, i = .load seed tap ∧ (seed = [] ∨ ∃ c ∈ seed, c ≠ sym0 ∧ c ≠ sym1) := by
  constructor
  · intro h
    cases h with
    | invalidSeed hseed => exact ⟨_, _, rfl, hseed⟩
  · rintro ⟨seed, tap, rfl, hseed⟩
    exact .invalidSeed hseed

theorem raises_invalidTap_iff {s : State} {i : Instr} :
    Raises s i .invalidTap ↔
      ∃ seed tap, i = .load seed tap ∧ seed ≠ [] ∧ BitString seed ∧ (tap < 1 ∨ (seed.length : Int) < tap) := by
  constructor
  · intro h
    cases h with
    | invalidTap hne hbin htap => exact ⟨_, _, rfl, hne, hbin, htap⟩
  · rintro ⟨seed, tap, rfl, hne, hbin, htap⟩
    exact .invalidTap hne hbin htap

theorem raises_keystreamUnavailable_iff {s : State} {i : Instr} :
    Raises s i .keystreamUnavailable ↔ ∃ p, i = .encrypt p [] ∨ i = .decrypt p [] := by
  constructor
  · intro h
    cases h with
    | encryptKeystream => exact ⟨_, .inl rfl⟩
    | decryptKeystream => exact ⟨_, .inr rfl⟩
  · rintro ⟨p, rfl | rfl⟩
    · exact .encryptKeystream
    · exact .decryptKeystream

/-! ### A command that raises a fault is answered with it -/

theorem exec_of_not_loaded {s : State} {i : Instr} (hi : needsRegister i = true) (hl : s.reg.loaded = false) :
    exec i s = .next (s.answered s.reg [Status.noRegister.code]) := by
  cases i with
  | shift | shiftbyte | genks _ | xorbyte _ | rdlast => exact withRegister_of_not_loaded hl _
  | load _ _ | combine _ _ | encrypt _ _ | decrypt _ _ | combineb _ _ | rdstate => cases hi

theorem exec_of_raises {s : State} {i : Instr} {st : Status} (h : Raises s i st) :
    exec i s = .next (s.answered s.reg [st.code]) := by
  cases h with
  | invalidSeed hseed => exact execLoad_invalidSeed hseed _ s
  | invalidTap hne hbin htap =>
    obtain ⟨bs, rfl⟩ := hbin.exists_bits
    rw [symsOf_length] at htap
    exact execLoad_invalidTap s (fun h0 => hne (congrArg symsOf h0)) htap
  | @encryptKeystream p | @decryptKeystream p => exact withKeystream_nil s (combineStrings p [] s)
  | noRegister hi hl => exact exec_of_not_loaded hi hl
  | invalidSteps hl hneg => rw [exec, execGenks, withRegister_of_loaded hl, if_pos hneg, raise_eq]
  | combineOperand hbad => exact combineStrings_nonBinary s hbad
  | encryptOperand hk hbad | decryptOperand hk hbad =>
    exact (withKeystream_of_ne hk s _).trans (combineStrings_nonBinary s hbad)
  | noValue hl hnone =>
    rw [exec, execRdlast, withRegister_of_loaded hl, hnone]
    exact raise_eq .noValue s

/-! ### A command that raises no fault is answered with OK -/

/-- `t` is `s` after a command with some new record and a response whose status is OK (R71). -/
def AnswersOk (s t : State) : Prop := ∃ r payload, t = s.answered r (Status.ok.code :: payload)

/-- The status of a response (R71). -/
def Response.status : Response → Status
  | .raised st => st
  | _ => .ok

/-- The frame of a response begins with its status (R71). -/
theorem frame_eq_status_cons {resp : Response} {f : Frame} (h : resp.frame = some f) :
    ∃ payload, f = resp.status.code :: payload := by
  cases resp with
  | raised _ | done | bit _ | byte _ => cases h; exact ⟨_, rfl⟩
  | str _ | bytes _ | record =>
    rw [Response.frame] at h
    split at h <;> cases h
    exact ⟨_, rfl⟩

theorem answer_answersOk {resp : Response} {s t : State} (hst : resp.status = .ok) (h : answer resp s = .next t) :
    AnswersOk s t := by
  obtain ⟨f, hf, rfl⟩ := answer_eq_next.1 h
  obtain ⟨payload, rfl⟩ := frame_eq_status_cons hf
  exact ⟨s.reg, payload, by rw [hst]⟩

theorem advance_answersOk {α : Type} {o : Option (α × Register)} {reply : α → Response} {s t : State}
    (hst : ∀ v, (reply v).status = .ok) (h : advance o reply s = .next t) : AnswersOk s t := by
  obtain ⟨v, r, f, -, hf, rfl⟩ := advance_eq_next.1 h
  obtain ⟨payload, rfl⟩ := frame_eq_status_cons hf
  exact ⟨r, payload, by rw [hst]⟩

/-- SHIFT, SHIFTBYTE and XORBYTE on a loaded register. -/
theorem stepping_answersOk {α : Type} {o : Option (α × Register)} {reply : α → Response} {s t : State}
    (hl : s.reg.loaded = true) (hst : ∀ v, (reply v).status = .ok)
    (h : withRegister s (advance o reply s) = .next t) : AnswersOk s t := by
  rw [withRegister_of_loaded hl] at h
  exact advance_answersOk hst h

theorem bitString_of_not_nonBinary {xs : List Symbol} (h : ¬ ∃ c ∈ xs, c ≠ sym0 ∧ c ≠ sym1) : BitString xs := by
  intro c hc
  by_contra hn
  exact h ⟨c, hc, not_or.1 hn⟩

theorem combineStrings_answersOk {a b : List Symbol} {s t : State} (hbin : BitString (a ++ b))
    (h : combineStrings a b s = .next t) : AnswersOk s t := by
  obtain ⟨x, rfl⟩ := BitString.exists_bits fun c hc => hbin c (List.mem_append_left b hc)
  obtain ⟨y, rfl⟩ := BitString.exists_bits fun c hc => hbin c (List.mem_append_right (symsOf x) hc)
  rw [combineStrings, bitsOf_symsOf, bitsOf_symsOf] at h
  exact answer_answersOk rfl h

theorem execLoad_answersOk {seed : List Symbol} {tap : Int} {s t : State} (hacc : LoadAccepted seed tap)
    (h : execLoad seed tap s = .next t) : AnswersOk s t := by
  obtain ⟨hne, hbin, h1, h2⟩ := hacc
  obtain ⟨bs, rfl⟩ := hbin.exists_bits
  rw [symsOf_length] at h2
  rw [execLoad_symsOf s (fun h0 => hne (congrArg symsOf h0)) h1 h2] at h
  cases h
  exact ⟨_, [], rfl⟩

theorem report_status (r : Register) : r.report.status = .ok := by
  rw [Register.report]
  split <;> rfl

section NoFault

variable {s t : State} {i : Instr}

theorem loaded_of_no_fault (hi : needsRegister i = true) (hno : ∀ st, ¬ Raises s i st) : s.reg.loaded = true :=
  Bool.of_not_eq_false fun hl => hno _ (.noRegister hi hl)

theorem loadAccepted_of_no_fault {seed : List Symbol} {tap : Int} (hno : ∀ st, ¬ Raises s (.load seed tap) st) :
    LoadAccepted seed tap := by
  obtain ⟨hne, hgood⟩ := not_or.1 fun hseed => hno _ (.invalidSeed hseed)
  have hbin := bitString_of_not_nonBinary hgood
  have htap : ¬ (tap < 1 ∨ (seed.length : Int) < tap) := fun htap => hno _ (.invalidTap hne hbin htap)
  exact ⟨hne, hbin, by omega, by omega⟩

/-- ENCRYPT and DECRYPT, once their keystream and their symbols pass the checks (R133, R134). -/
theorem withKeystream_answersOk {p k : List Symbol} (hk : k ≠ []) (hgood : ¬ ∃ c ∈ p ++ k, c ≠ sym0 ∧ c ≠ sym1)
    (h : withKeystream k s (combineStrings p k s) = .next t) : AnswersOk s t := by
  rw [withKeystream_of_ne hk] at h
  exact combineStrings_answersOk (bitString_of_not_nonBinary hgood) h

theorem exec_answersOk (hno : ∀ st, ¬ Raises s i st) (h : exec i s = .next t) : AnswersOk s t := by
  cases i with
  | load seed tap => exact execLoad_answersOk (loadAccepted_of_no_fault hno) h
  | shift => exact stepping_answersOk (loaded_of_no_fault rfl hno) (fun _ => rfl) h
  | shiftbyte => exact stepping_answersOk (loaded_of_no_fault rfl hno) (fun _ => rfl) h
  | genks steps =>
    have hl := loaded_of_no_fault rfl hno
    rw [exec, execGenks, withRegister_of_loaded hl, if_neg fun hneg => hno _ (.invalidSteps hl hneg)] at h
    exact advance_answersOk (fun _ => rfl) h
  | combine a b =>
    exact combineStrings_answersOk (bitString_of_not_nonBinary fun hbad => hno _ (.combineOperand hbad)) h
  | encrypt p k =>
    have hk : k ≠ [] := by rintro rfl; exact hno _ .encryptKeystream
    exact withKeystream_answersOk hk (fun hbad => hno _ (.encryptOperand hk hbad)) h
  | decrypt c k =>
    have hk : k ≠ [] := by rintro rfl; exact hno _ .decryptKeystream
    exact withKeystream_answersOk hk (fun hbad => hno _ (.decryptOperand hk hbad)) h
  | combineb a b => exact answer_answersOk rfl h
  | xorbyte v => exact stepping_answersOk (loaded_of_no_fault rfl hno) (fun _ => rfl) h
  | rdlast =>
    have hl := loaded_of_no_fault rfl hno
    obtain ⟨b, hb⟩ := Option.ne_none_iff_exists'.1 fun hnone => hno _ (.noValue hl hnone)
    rw [exec, execRdlast, withRegister_of_loaded hl, hb] at h
    exact answer_answersOk rfl h
  | rdstate => exact answer_answersOk (report_status s.reg) h

/-- All that a command can do: it is answered with its fault and changes nothing, or it is answered with OK. -/
theorem exec_next_cases (h : exec i s = .next t) :
    (∃ st, Raises s i st ∧ t = s.answered s.reg [st.code]) ∨ AnswersOk s t := by
  by_cases hf : ∃ st, Raises s i st
  · obtain ⟨st, hr⟩ := hf
    rw [exec_of_raises hr] at h
    cases h
    exact .inl ⟨st, hr, rfl⟩
  · exact .inr (exec_answersOk (not_exists.1 hf) h)

end NoFault

/-! ### The fault is read off the response -/

theorem Status.code_injective : Function.Injective Status.code := by
  intro a b h
  cases a <;> cases b <;> revert h <;> decide

/-- What was appended to the responses is the response. -/
theorem State.answered_response_inj {s : State} {r : Register} {f g : Frame}
    (h : (s.answered r f).responses = s.responses ++ [g]) : f = g := by
  rw [State.answered_responses] at h
  exact List.singleton_inj.1 (List.append_cancel_left h)

/-- A command is answered with a fault exactly when it raises that fault. -/
theorem exec_eq_fault_iff {s : State} {i : Instr} {st : Status} (hst : st ≠ .ok) :
    exec i s = .next (s.answered s.reg [st.code]) ↔ Raises s i st := by
  refine ⟨fun h => ?_, exec_of_raises⟩
  rcases exec_next_cases h with ⟨st', hr, ht⟩ | ⟨r, payload, ht⟩
  · have hcode := State.answered_response_inj (congrArg State.responses ht)
    rwa [Status.code_injective (List.singleton_inj.1 hcode)]
  · have hcode := State.answered_response_inj (congrArg State.responses ht)
    exact absurd (Status.code_injective (List.cons.inj hcode).1) hst

/-- Settles O31: a response with another status than OK is that of a raised fault. -/
theorem faultChangesNothing : Obligations.FaultChangesNothing := by
  intro i s t f h hresp hfault
  rcases exec_next_cases h with ⟨st, -, rfl⟩ | ⟨r, payload, rfl⟩
  · obtain rfl := State.answered_response_inj hresp
    exact ⟨rfl, rfl⟩
  · obtain rfl := State.answered_response_inj hresp
    simp [isFaultFrame] at hfault

/-! ### Pseudo-instructions on a LOAD's fault -/

theorem AdmitsSeed.withinLimits {s : State} {seed : List Symbol} (h : AdmitsSeed s seed) (tap : Int) :
    Instr.withinLimits s.limits (.load seed tap) = true := withinBound_iff.2 h

/-- A run that begins with a LOAD that raises a fault fails with it and issues nothing more (R171, R172). -/
theorem afterLoad_of_raises {α : Type} {s : State} {seed : List Symbol} {tap : Int} {st : Status}
    (hadm : AdmitsSeed s seed) (h : Raises s (.load seed tap) st) (go : State → PseudoResult α) :
    afterLoad seed tap s go = .failed [st.code] (s.answered s.reg [st.code]) := by
  refine afterLoad_of_fault (issue_of_exec (hadm.withinLimits tap) (exec_of_raises h)) (fun hok => ?_) go
  exact h.ne_ok (Status.code_injective (List.singleton_inj.1 hok))

/-- The four pseudo-instructions that begin with a LOAD (R74). -/
theorem pseudo_fails_of_raises {s : State} {seed : List Symbol} {tap : Int} {st : Status} (img : Image) (n : Int)
    (hadm : AdmitsSeed s seed) (h : Raises s (.load seed tap) st) :
    procImg img seed tap s = .failed [st.code] (s.answered s.reg [st.code]) ∧
    encryptImage img seed tap s = .failed [st.code] (s.answered s.reg [st.code]) ∧
    decryptImage img seed tap s = .failed [st.code] (s.answered s.reg [st.code]) ∧
    generateKeystream seed tap n s = .failed [st.code] (s.answered s.reg [st.code]) := by
  have himg : procImg img seed tap s = .failed [st.code] (s.answered s.reg [st.code]) :=
    afterLoad_of_raises hadm h _
  exact ⟨himg, himg, himg, afterLoad_of_raises hadm h _⟩

/-- Settles O2: `InvalidSeed` is raised by no other command, and the runs that begin with a LOAD stop on its fault. -/
theorem invalidSeedExactlyOnBadSeed : Obligations.InvalidSeedExactlyOnBadSeed := by
  refine ⟨fun i s => (exec_eq_fault_iff (by decide)).trans raises_invalidSeed_iff, ?_⟩
  intro seed tap n img s hadm hseed
  exact pseudo_fails_of_raises img n hadm (.invalidSeed hseed)

/-- Settles O3: `InvalidTap` is raised by no other command, and the runs that begin with a LOAD stop on its fault. -/
theorem invalidTapExactlyOutsideRange : Obligations.InvalidTapExactlyOutsideRange := by
  refine ⟨fun i s => (exec_eq_fault_iff (by decide)).trans raises_invalidTap_iff, ?_⟩
  intro img seed tap n s hadm hne hbin htap
  exact pseudo_fails_of_raises img n hadm (.invalidTap hne hbin htap)

/-! ### The empty keystream -/

/-- Combining with nothing is combining with zeros, which changes no bit (R130). -/
theorem combineBits_nil_right (x : List Bit) : combineBits x [] = x :=
  List.ext_getElem (by simp) fun _ _ _ => by simp [combineBits, combineWith, leftPad]

/-- Settles O21: `KeystreamUnavailable` is raised by ENCRYPT and DECRYPT only; COMBINE has no such check, and the
empty operand is padded with zeros. -/
theorem emptyKeystreamRejected : Obligations.EmptyKeystreamRejected := by
  refine ⟨fun i s => (exec_eq_fault_iff (by decide)).trans raises_keystreamUnavailable_iff, ?_⟩
  intro a s hbin hlen
  obtain ⟨x, rfl⟩ := hbin.exists_bits
  rw [symsOf_length] at hlen
  have h := combineStrings_symsOf (y := []) s hlen (by decide)
  rwa [combineBits_nil_right] at h

end Sys2Proof.Machine

/-! COMBINE, ENCRYPT and DECRYPT at each position: `exec_combiner` says once that the three commands XOR their operands
padded on the left (R130, R133, R134); how operands of unequal length align (R206) is read off the padding. -/

namespace Sys2Proof.Machine

/-! ### The padding at a position -/

theorem paddedAt_of_lt {α : Type} {z : α} {n : Nat} {xs : List α} {j : Nat} (h : j < n - xs.length) :
    paddedAt z n xs j = some z := if_pos h

theorem paddedAt_of_le {α : Type} {z : α} {n : Nat} {xs : List α} {j : Nat} (h : n - xs.length ≤ j) :
    paddedAt z n xs j = xs[j - (n - xs.length)]? := if_neg h.not_gt

/-- A sequence of the full length is not padded. -/
theorem paddedAt_of_length_ge {α : Type} {z : α} {n : Nat} {xs : List α} {j : Nat} (h : n ≤ xs.length) :
    paddedAt z n xs j = xs[j]? := by
  rw [paddedAt_of_le (by omega), Nat.sub_eq_zero_of_le h, Nat.sub_zero]

/-! ### The XOR of padded strings -/

theorem xorSym_comm (c d : Symbol) : xorSym c d = xorSym d c := by
  simp only [xorSym, eq_comm]

/-- A padding character masks nothing. -/
theorem xorSym_sym0_left {c : Symbol} (h : c = sym0 ∨ c = sym1) : xorSym sym0 c = c := by
  rcases h with rfl | rfl <;> decide

/-- `r` has at every position the XOR of the characters of `a` and `b` padded to the longer's length (R130). -/
def XorsPadded (r a b : List Symbol) : Prop :=
  ∀ (j : Nat) (c d : Symbol), paddedAt sym0 (max a.length b.length) a j = some c →
    paddedAt sym0 (max a.length b.length) b j = some d → r[j]? = some (xorSym c d)

theorem xorsPadded_symsOf_combineBits (x y : List Bit) :
    XorsPadded (symsOf (combineBits x y)) (symsOf x) (symsOf y) := by
  intro j c d hc hd
  rw [symsOf_length, symsOf_length, paddedAt_symsOf] at hc hd
  obtain ⟨b, hb, rfl⟩ := Option.map_eq_some_iff.1 hc
  obtain ⟨e, he, rfl⟩ := Option.map_eq_some_iff.1 hd
  rw [symsOf, List.getElem?_map, combineBits, combineWith_getElem?, hb, he, xorSym_symOf]
  rfl

theorem XorsPadded.symm {r a b : List Symbol} (h : XorsPadded r a b) : XorsPadded r b a := by
  intro j c d hc hd
  rw [max_comm] at hc hd
  rw [xorSym_comm]
  exact h j d c hd hc

/-- Before the shorter operand begins the result is the longer one's own. -/
theorem XorsPadded.getElem?_of_lt {r short long : List Symbol} {j : Nat} (h : XorsPadded r short long)
    (hbin : BitString long) (hj : j < long.length - short.length) : r[j]? = long[j]? := by
  have hmax : max short.length long.length = long.length := by omega
  have hlong : long[j]? = some long[j] := List.getElem?_eq_getElem (by omega)
  rw [h j sym0 long[j] (paddedAt_of_lt (by omega)) ((paddedAt_of_length_ge hmax.le).trans hlong),
    xorSym_sym0_left (hbin _ (List.getElem_mem _)), hlong]

/-- From where the shorter operand begins, its characters meet the longer one's last ones in order. -/
theorem XorsPadded.getElem?_of_le {r short long : List Symbol} {j : Nat} (h : XorsPadded r short long)
    (hle : short.length ≤ long.length) (hj : long.length - short.length ≤ j) (hlt : j < long.length) :
    ∃ c d, long[j]? = some c ∧ short[j - (long.length - short.length)]? = some d ∧ r[j]? = some (xorSym d c) := by
  have hmax : max short.length long.length = long.length := max_eq_right hle
  have hlong : long[j]? = some long[j] := List.getElem?_eq_getElem hlt
  have hshort : short[j - (long.length - short.length)]? = some short[j - (long.length - short.length)] :=
    List.getElem?_eq_getElem (by omega)
  refine ⟨_, _, hlong, hshort, h j _ _ ?_ ((paddedAt_of_length_ge hmax.le).trans hlong)⟩
  rw [hmax, paddedAt_of_le hj, hshort]

/-! ### The three commands -/

/-- COMBINE's check and result on bit-strings that a frame carries (R130). -/
theorem combineStrings_bitStrings {a b : List Symbol} (s : State) (ha : BitString a) (hb : BitString b)
    (hla : a.length < 2 ^ 32) (hlb : b.length < 2 ^ 32) :
    ∃ r, r.length = max a.length b.length ∧ XorsPadded r a b ∧
      combineStrings a b s = .next (s.answered s.reg (0x00#8 :: strBytes r)) := by
  obtain ⟨x, rfl⟩ := ha.exists_bits
  obtain ⟨y, rfl⟩ := hb.exists_bits
  rw [symsOf_length] at hla hlb
  exact ⟨_, by simp, xorsPadded_symsOf_combineBits x y, combineStrings_symsOf s hla hlb⟩

/-- ENCRYPT and DECRYPT with a keystream do what COMBINE does (R133, R134). -/
theorem exec_eq_combineStrings {i : Instr} {p k : List Symbol} (s : State)
    (hi : i = .combine p k ∨ (k ≠ [] ∧ (i = .encrypt p k ∨ i = .decrypt p k))) :
    exec i s = combineStrings p k s := by
  rcases hi with rfl | ⟨hk, rfl | rfl⟩
  · rfl
  · exact withKeystream_of_ne hk s _
  · exact withKeystream_of_ne hk s _

/-- COMBINE, and ENCRYPT and DECRYPT with a keystream, on bit-strings that a frame carries. -/
theorem exec_combiner {i : Instr} {p k : List Symbol} (s : State) (hp : BitString p) (hk : BitString k)
    (hlp : p.length < 2 ^ 32) (hlk : k.length < 2 ^ 32)
    (hi : i = .combine p k ∨ (k ≠ [] ∧ (i = .encrypt p k ∨ i = .decrypt p k))) :
    ∃ r, r.length = max p.length k.length ∧ XorsPadded r p k ∧
      exec i s = .next (s.answered s.reg (0x00#8 :: strBytes r)) := by
  rw [exec_eq_combineStrings s hi]
  exact combineStrings_bitStrings s hp hk hlp hlk

/-- Settles O19: the XOR of the padded operands, with the text as the shorter operand and with the keystream as the
shorter. -/
theorem paddingAlignsLastCharacters : Obligations.PaddingAlignsLastCharacters := by
  intro i p k s hp hk hlp hlk hi
  obtain ⟨r, hlen, hxor, hex⟩ := exec_combiner s hp hk hlp hlk hi
  refine ⟨r, hlen, hex, fun j _ hj => hxor.getElem?_of_lt hk hj, fun j hle hj hlt => hxor.getElem?_of_le hle hj hlt,
    fun j _ hj => hxor.symm.getElem?_of_lt hp hj, fun j hgt hj hlt => ?_⟩
  obtain ⟨c, d, hc, hd, hr⟩ := hxor.symm.getElem?_of_le hgt.le hj hlt
  exact ⟨c, d, hc, hd, xorSym_comm c d ▸ hr⟩

end Sys2Proof.Machine

/-! Frames (30_encoding.md): `decodeFrame_eq_ok` says once which frames decode, namely the encodings of the well-formed
commands. The exact length of a frame is that of its fields, each of which is read whole or refused as too short. -/

namespace Sys2Proof

/-! ### A frame decodes exactly to the command it encodes -/

theorem byte_eq_ofNat {b : Byte} {n : Nat} (h : b.toNat = n) : b = BitVec.ofNat 8 n := by
  rw [← h, BitVec.ofNat_toNat, BitVec.setWidth_eq]

/-- What decodes is well formed and was encoded, opcode by opcode (R67). -/
theorem wellFormed_encode_of_decodeBody {lim : Limits} {op : Byte} {rest : List Byte} {i : Instr}
    (h : decodeBody lim op rest = .ok i) : i.wellFormed lim = true ∧ op :: rest = encode i := by
  rw [decodeBody] at h
  split at h
  case h_1 hop =>
    obtain rfl := byte_eq_ofNat hop
    obtain ⟨s, v, rfl, rfl, hs, hv⟩ := decodeSI_eq_ok.1 h
    exact ⟨Bool.and_eq_true_iff.2 ⟨hs, hv⟩, rfl⟩
  case h_2 hop | h_3 hop | h_10 hop | h_11 hop =>
    obtain rfl := byte_eq_ofNat hop
    obtain ⟨rfl, rfl⟩ := decodeN_eq_ok.1 h
    exact ⟨rfl, rfl⟩
  case h_4 hop =>
    obtain rfl := byte_eq_ofNat hop
    obtain ⟨v, rfl, rfl, hv, hs⟩ := decodeI_eq_ok.1 h
    exact ⟨Bool.and_eq_true_iff.2 ⟨hv, hs⟩, rfl⟩
  case h_5 hop | h_6 hop | h_7 hop | h_8 hop =>
    obtain rfl := byte_eq_ofNat hop
    obtain ⟨a, b, rfl, rfl, ha, hb⟩ := decodeSS_eq_ok.1 h
    exact ⟨Bool.and_eq_true_iff.2 ⟨ha, hb⟩, rfl⟩
  case h_9 hop =>
    obtain rfl := byte_eq_ofNat hop
    obtain ⟨v, rfl, rfl⟩ := decodeB_eq_ok.1 h
    exact ⟨rfl, rfl⟩
  case h_12 => cases h

/-- The frame of a well-formed command decodes to it, format by format (R63). -/
theorem decodeFrame_encode {lim : Limits} {i : Instr} (h : i.wellFormed lim = true) :
    decodeFrame lim (encode i) = .ok i := by
  cases i with
  | load seed tap =>
    obtain ⟨hs, hv⟩ := Bool.and_eq_true_iff.1 h
    exact decodeSI_eq_ok.2 ⟨seed, tap, rfl, rfl, hs, hv⟩
  | shift | shiftbyte | rdlast | rdstate | xorbyte _ => rfl
  | genks steps =>
    obtain ⟨hv, hs⟩ := Bool.and_eq_true_iff.1 h
    exact decodeI_eq_ok.2 ⟨steps, rfl, rfl, hv, hs⟩
  | combine a b | encrypt a b | decrypt a b | combineb a b =>
    obtain ⟨ha, hb⟩ := Bool.and_eq_true_iff.1 h
    exact decodeSS_eq_ok.2 ⟨a, b, rfl, rfl, ha, hb⟩

/-- Exactly the frames of well-formed commands decode. -/
theorem decodeFrame_eq_ok {lim : Limits} {f : Frame} {i : Instr} :
    decodeFrame lim f = .ok i ↔ i.wellFormed lim = true ∧ f = encode i := by
  refine ⟨fun h => ?_, fun ⟨hwf, hf⟩ => hf ▸ decodeFrame_encode hwf⟩
  cases f with
  | nil => cases h
  | cons op rest => exact wellFormed_encode_of_decodeBody h

/-- Settles O39: each format's reader takes back what its writer laid out. -/
theorem decodeOfEncode : Obligations.DecodeOfEncode := fun _ _ h => decodeFrame_encode h

/-- Settles O40: each format's reader accepts nothing but what its writer lays out. -/
theorem encodeOfDecode : Obligations.EncodeOfDecode := by
  intro lim f i h
  obtain ⟨hwf, rfl⟩ := decodeFrame_eq_ok.1 h
  exact ⟨hwf, rfl⟩

/-! ### The layout told by byte weights -/

/-- The layout of format `SS` is the writer's (R62, R63). -/
theorem laidOutSS_iff {op : Byte} {a b : List Byte} {f : Frame} (ha : a.length < 2 ^ 32) (hb : b.length < 2 ^ 32) :
    Machine.LaidOutSS op a b f ↔ f = op :: (strBytes a ++ strBytes b) := by
  simp [-Nat.reducePow, Machine.LaidOutSS, isU32_iff, ha, hb, strBytes]

/-- The layout told by byte weights is the encoder's, for a command that has a frame. -/
theorem laidOut_iff {lim : Limits} {i : Instr} {f : Frame} (h : i.wellFormed lim = true) :
    Machine.LaidOut i f ↔ f = encode i := by
  cases i with
  | load seed tap =>
    obtain ⟨hs, hv⟩ := Bool.and_eq_true_iff.1 h
    simp [-Nat.reducePow, Machine.LaidOut, isU32_iff, isI32_iff, (okLength_iff.1 hs).1, hv, encode, strBytes]
  | genks steps =>
    obtain ⟨hv, -⟩ := Bool.and_eq_true_iff.1 h
    simp [-Nat.reducePow, Machine.LaidOut, isI32_iff, hv, encode]
  | combine a b | encrypt a b | decrypt a b | combineb a b =>
    obtain ⟨ha, hb⟩ := Bool.and_eq_true_iff.1 h
    exact laidOutSS_iff (okLength_iff.1 ha).1 (okLength_iff.1 hb).1
  | shift | shiftbyte | xorbyte _ | rdlast | rdstate => rfl

/-- Settles O53: the frames that decode are the encoder's, and those are laid out as the spec says. -/
theorem framesAreLaidOut : Obligations.FramesAreLaidOut := by
  intro lim f i
  rw [decodeFrame_eq_ok]
  exact and_congr_right fun hwf => (laidOut_iff hwf).symm

/-! ### The opcode map -/

theorem decodeBody_illegal {lim : Limits} {op : Byte} (h : op = 0x00#8 ∨ 0x0C ≤ op.toNat) (rest : List Byte) :
    decodeBody lim op rest = .error .illegalOpcode := by
  have hop : op.toNat = 0 ∨ 12 ≤ op.toNat := h.imp_left fun h0 => by rw [h0]; rfl
  rw [decodeBody]
  split
  case h_12 => rfl
  all_goals omega

/-- From every opcode of the map some frame decodes, whatever the bounds: that of a command with empty or zero
operands. -/
theorem decodeFrame_of_mapped {op : Byte} (lim : Limits) (h1 : 1 ≤ op.toNat) (h2 : op.toNat ≤ 0x0B) :
    ∃ rest i, decodeFrame lim (op :: rest) = .ok i := by
  suffices ∃ i rest, i.wellFormed lim = true ∧ op :: rest = encode i by
    obtain ⟨i, rest, hwf, hf⟩ := this
    exact ⟨rest, i, decodeFrame_eq_ok.2 ⟨hwf, hf⟩⟩
  obtain ⟨n, hn, rfl⟩ : ∃ n : Nat, n ∈ List.range' 1 11 ∧ op = BitVec.ofNat 8 n :=
    ⟨op.toNat, by simp; omega, by simp⟩
  have hlen (bound : Option Nat) : okLength bound 0 = true :=
    okLength_iff.2 ⟨by decide, withinBound_iff.2 fun m _ => m.zero_le⟩
  simp only [List.range', List.mem_cons, List.not_mem_nil, or_false] at hn
  rcases hn with rfl | rfl | rfl | rfl | rfl | rfl | rfl | rfl | rfl | rfl | rfl
  · exact ⟨.load [] 0, _, Bool.and_eq_true_iff.2 ⟨hlen _, rfl⟩, rfl⟩
  · exact ⟨.shift, _, rfl, rfl⟩
  · exact ⟨.shiftbyte, _, rfl, rfl⟩
  · exact ⟨.genks 0, _, Bool.and_eq_true_iff.2 ⟨rfl, (okLength_iff.1 (hlen _)).2⟩, rfl⟩
  · exact ⟨.combine [] [], _, Bool.and_eq_true_iff.2 ⟨hlen _, hlen _⟩, rfl⟩
  · exact ⟨.encrypt [] [], _, Bool.and_eq_true_iff.2 ⟨hlen _, hlen _⟩, rfl⟩
  · exact ⟨.decrypt [] [], _, Bool.and_eq_true_iff.2 ⟨hlen _, hlen _⟩, rfl⟩
  · exact ⟨.combineb [] [], _, Bool.and_eq_true_iff.2 ⟨hlen _, hlen _⟩, rfl⟩
  · exact ⟨.xorbyte 0, _, rfl, rfl⟩
  · exact ⟨.rdlast, _, rfl, rfl⟩
  · exact ⟨.rdstate, _, rfl, rfl⟩

/-- Settles O41: the decoder's map has eleven opcodes, and a frame that decodes begins with the encoder's. -/
theorem illegalOpcodesSelectNothing : Obligations.IllegalOpcodesSelectNothing := by
  refine fun lim => ⟨rfl, fun op => ⟨fun h rest => decodeBody_illegal h rest, decodeFrame_of_mapped lim, ?_⟩⟩
  intro rest i h
  have hf := (decodeFrame_eq_ok.1 h).2
  cases i <;> exact (List.cons.inj hf).1

/-! ### The exact length of a frame -/

/-- The reader `read` takes the field `w` whole, as `x`, and refuses it as too short when it is cut (R69 case (a)). -/
def ReadsField {α : Type} (read : List Byte → Except DecodeError (α × List Byte)) (w : List Byte) (x : α) : Prop :=
  (∀ rest, read (w ++ rest) = .ok (x, rest)) ∧ ∀ n, n < w.length → read (w.take n) = .error .tooShort

theorem readsField_i32 {v : Int} (h : fitsI32 v = true) : ReadsField readI32 (i32Bytes v) v :=
  ⟨fun _ => readI32_eq_ok.2 ⟨rfl, h⟩,
    fun _ hn => readI32_eq_error.2 ⟨rfl, (List.length_take_le _ _).trans_lt hn⟩⟩

theorem readsField_str {bound : Option Nat} {xs : List Byte} (h : okLength bound xs.length = true) :
    ReadsField (readStr bound) (strBytes xs) xs := by
  obtain ⟨hlen, hb⟩ := okLength_iff.1 h
  refine ⟨readStr_of_ok h, fun n hn => ?_⟩
  rw [strBytes_length] at hn
  rw [strBytes, List.take_append, u32Bytes_length, readStr]
  rcases Nat.lt_or_ge n 4 with h4 | h4
  · -- the length field itself is cut
    have hcut : readU32 ((u32Bytes xs.length).take n ++ xs.take (n - 4)) = .error .tooShort :=
      readU32_eq_error.2 ⟨rfl, by simp; omega⟩
    rw [hcut]
  · -- elements are missing
    have hshort : (xs.take (n - 4)).length < xs.length := by simp; omega
    rw [List.take_of_length_le (by simpa using h4), readU32_bytes hlen]
    simp only [hb, Bool.true_eq_false, if_false, if_pos hshort]

/-- The decoder `dec`, which takes `body`, takes neither more nor fewer bytes (R69 cases (a), (b)). -/
def DecodesExactly (dec : List Byte → Except DecodeError Instr) (body : List Byte) : Prop :=
  (∀ tail, tail ≠ [] → dec (body ++ tail) = .error .trailingBytes) ∧
    ∀ n, n < body.length → dec (body.take n) = .error .tooShort

theorem decodeN_of_ne_nil {i : Instr} {bytes : List Byte} (h : bytes ≠ []) :
    decodeN i bytes = .error .trailingBytes := by
  cases bytes with
  | nil => exact absurd rfl h
  | cons b bs => rfl

theorem decodeN_exactly (i : Instr) : DecodesExactly (decodeN i) [] :=
  ⟨fun _ h => decodeN_of_ne_nil h, fun _ h => absurd h (Nat.not_lt_zero _)⟩

theorem decodeB_exactly (mk : Byte → Instr) (v : Byte) : DecodesExactly (decodeB mk) [v] := by
  refine ⟨fun _ h => decodeN_of_ne_nil h, fun n h => ?_⟩
  obtain rfl : n = 0 := Nat.lt_one_iff.1 h
  rfl

theorem decodeI_exactly {bound : Option Nat} (mk : Int → Instr) {v : Int} (hv : fitsI32 v = true)
    (hs : okSteps bound v = true) : DecodesExactly (decodeI bound mk) (i32Bytes v) := by
  obtain ⟨hall, hcut⟩ := readsField_i32 hv
  refine ⟨fun tail h => ?_, fun n h => ?_⟩
  · simp only [decodeI, hall, hs, if_true, decodeN_of_ne_nil h]
  · simp only [decodeI, hcut n h]

/-- A string and one more field, of format `SI` or `SS`: cut in the first field, or after it in the second. -/
theorem decodesExactly_pair {α : Type} {read : List Byte → Except DecodeError (α × List Byte)}
    {dec : List Byte → Except DecodeError Instr} {bound : Option Nat} {mk : List Byte → α → Instr}
    {xs w : List Byte} {x : α} (hxs : okLength bound xs.length = true) (hw : ReadsField read w x)
    (hdec : ∀ bytes, dec bytes =
      (readStr bound bytes).bind fun p => (read p.2).bind fun q => decodeN (mk p.1 q.1) q.2) :
    DecodesExactly dec (strBytes xs ++ w) := by
  obtain ⟨hall, hcut⟩ := readsField_str hxs
  obtain ⟨hall', hcut'⟩ := hw
  refine ⟨fun tail h => ?_, fun n h => ?_⟩
  · rw [hdec, List.append_assoc, hall]
    simp only [Except.bind, hall', decodeN_of_ne_nil h]
  · rw [List.length_append] at h
    rw [hdec, List.take_append]
    rcases Nat.lt_or_ge n (strBytes xs).length with hn | hn
    · rw [Nat.sub_eq_zero_of_le hn.le, List.take_zero, List.append_nil, hcut n hn]
      rfl
    · rw [List.take_of_length_le hn, hall]
      simp only [Except.bind, hcut' (n - (strBytes xs).length) (by omega)]

theorem decodeSI_eq_bind (bound : Option Nat) (mk : List Byte → Int → Instr) (bytes : List Byte) :
    decodeSI bound mk bytes =
      (readStr bound bytes).bind fun p => (readI32 p.2).bind fun q => decodeN (mk p.1 q.1) q.2 := by
  rw [decodeSI]
  rcases readStr bound bytes with _ | ⟨s, rest⟩
  · rfl
  · simp only [Except.bind]
    rcases readI32 rest with _ | ⟨v, rest'⟩ <;> rfl

theorem decodeSS_eq_bind (bound : Option Nat) (mk : List Byte → List Byte → Instr) (bytes : List Byte) :
    decodeSS bound mk bytes =
      (readStr bound bytes).bind fun p => (readStr bound p.2).bind fun q => decodeN (mk p.1 q.1) q.2 := by
  rw [decodeSS]
  rcases readStr bound bytes with _ | ⟨a, rest⟩
  · rfl
  · simp only [Except.bind]
    rcases readStr bound rest with _ | ⟨b, rest'⟩ <;> rfl

theorem decodeSI_exactly {bound : Option Nat} (mk : List Byte → Int → Instr) {s : List Byte} {v : Int}
    (hs : okLength bound s.length = true) (hv : fitsI32 v = true) :
    DecodesExactly (decodeSI bound mk) (strBytes s ++ i32Bytes v) :=
  decodesExactly_pair hs (readsField_i32 hv) (decodeSI_eq_bind bound mk)

theorem decodeSS_exactly {bound : Option Nat} (mk : List Byte → List Byte → Instr) {a b : List Byte}
    (ha : okLength bound a.length = true) (hb : okLength bound b.length = true) :
    DecodesExactly (decodeSS bound mk) (strBytes a ++ strBytes b) :=
  decodesExactly_pair ha (readsField_str hb) (decodeSS_eq_bind bound mk)

/-- The fields after the opcode are read to their end and no further. -/
theorem DecodesExactly.frame {dec : List Byte → Except DecodeError Instr} {lim : Limits} {op : Byte}
    {body : List Byte} (h : DecodesExactly dec body) (hop : decodeBody lim op = dec) :
    (∀ tail, tail ≠ [] → decodeFrame lim (op :: body ++ tail) = .error .trailingBytes) ∧
      ∀ n, 0 < n → n < (op :: body).length → decodeFrame lim ((op :: body).take n) = .error .tooShort := by
  subst hop
  refine ⟨h.1, fun n h0 hn => ?_⟩
  obtain ⟨n, rfl⟩ := Nat.exists_eq_add_one_of_ne_zero h0.ne'
  exact h.2 n (Nat.lt_of_succ_lt_succ hn)

theorem encode_exactly {lim : Limits} {i : Instr} (h : i.wellFormed lim = true) :
    (∀ tail, tail ≠ [] → decodeFrame lim (encode i ++ tail) = .error .trailingBytes) ∧
      ∀ n, 0 < n → n < (encode i).length → decodeFrame lim ((encode i).take n) = .error .tooShort := by
  cases i with
  | load seed tap =>
    obtain ⟨hs, hv⟩ := Bool.and_eq_true_iff.1 h
    exact (decodeSI_exactly .load hs hv).frame rfl
  | shift => exact (decodeN_exactly .shift).frame rfl
  | shiftbyte => exact (decodeN_exactly .shiftbyte).frame rfl
  | genks steps =>
    obtain ⟨hv, hs⟩ := Bool.and_eq_true_iff.1 h
    exact (decodeI_exactly .genks hv hs).frame rfl
  | combine a b =>
    obtain ⟨ha, hb⟩ := Bool.and_eq_true_iff.1 h
    exact (decodeSS_exactly .combine ha hb).frame rfl
  | encrypt p k =>
    obtain ⟨hp, hk⟩ := Bool.and_eq_true_iff.1 h
    exact (decodeSS_exactly .encrypt hp hk).frame rfl
  | decrypt c k =>
    obtain ⟨hc, hk⟩ := Bool.and_eq_true_iff.1 h
    exact (decodeSS_exactly .decrypt hc hk).frame rfl
  | combineb a b =>
    obtain ⟨ha, hb⟩ := Bool.and_eq_true_iff.1 h
    exact (decodeSS_exactly .combineb ha hb).frame rfl
  | xorbyte v => exact (decodeB_exactly .xorbyte v).frame rfl
  | rdlast => exact (decodeN_exactly .rdlast).frame rfl
  | rdstate => exact (decodeN_exactly .rdstate).frame rfl

/-- R64, for every command. -/
theorem frameLength_encode {lim : Limits} {i : Instr} (h : i.wellFormed lim = true) :
    frameLength (encode i) = some (encode i).length := by
  cases i with
  | load seed tap => exact Laws.FrameLength.load seed tap lim h
  | shift => exact Laws.FrameLength.shift lim h
  | shiftbyte => exact Laws.FrameLength.shiftbyte lim h
  | genks steps => exact Laws.FrameLength.genks steps lim h
  | combine a b => exact Laws.FrameLength.combine a b lim h
  | encrypt p k => exact Laws.FrameLength.encrypt p k lim h
  | decrypt c k => exact Laws.FrameLength.decrypt c k lim h
  | combineb a b => exact Laws.FrameLength.combineb a b lim h
  | xorbyte v => exact Laws.FrameLength.xorbyte v lim h
  | rdlast => exact Laws.FrameLength.rdlast lim h
  | rdstate => exact Laws.FrameLength.rdstate lim h

/-- Settles O42: the frame is an encoding, and each format reads its fields to their end and no further. -/
theorem frameLengthIsExact : Obligations.FrameLengthIsExact := by
  intro lim f i h
  obtain ⟨hwf, rfl⟩ := decodeFrame_eq_ok.1 h
  exact ⟨frameLength_encode hwf, encode_exactly hwf⟩

/-! ### Operands above the bounds -/

theorem withinBound_eq_false {m n : Nat} (h : m < n) : withinBound (some m) n = false :=
  decide_eq_false h.not_ge

theorem readStr_overBound {m : Nat} {xs : List Byte} (hlen : xs.length < 2 ^ 32) (h : m < xs.length)
    (rest : List Byte) : readStr (some m) (strBytes xs ++ rest) = .error .overBound := by
  rw [readStr, strBytes, List.append_assoc, readU32_bytes hlen]
  simp only [withinBound_eq_false h, if_true]

/-- A format `SS` whose first or second operand is too long. -/
theorem decodeSS_overBound {m : Nat} (mk : List Byte → List Byte → Instr) {a b : List Byte}
    (ha : a.length < 2 ^ 32) (hb : b.length < 2 ^ 32) (h : m < a.length ∨ m < b.length) :
    decodeSS (some m) mk (strBytes a ++ strBytes b) = .error .overBound := by
  rw [decodeSS_eq_bind]
  rcases Nat.lt_or_ge m a.length with hma | hma
  · rw [readStr_overBound ha hma]
    rfl
  · have hok : okLength (some m) a.length = true := okLength_iff.2 ⟨ha, decide_eq_true hma⟩
    have hover := readStr_overBound hb (h.resolve_left hma.not_gt) []
    rw [List.append_nil] at hover
    rw [readStr_of_ok hok, Except.bind, hover]
    rfl

/-- Settles O43: the reader of a length and the check of `steps` compare with the bound. -/
theorem oversizeOperandsRefused : Obligations.OversizeOperandsRefused := by
  intro lim m a b v ha hb hv
  refine ⟨fun hm h => ?_, fun hm h => ?_, fun hm h => ?_⟩
  · change decodeSI lim.lmax .load (strBytes a ++ i32Bytes v) = _
    rw [hm, decodeSI_eq_bind, readStr_overBound ha h]
    rfl
  · change decodeI lim.nmax .genks (i32Bytes v) = _
    have hread := (readsField_i32 hv).1 []
    rw [List.append_nil] at hread
    have hover : okSteps (some m) v = false := withinBound_eq_false (by omega)
    simp [hm, decodeI, hread, hover]
  · have hss (mk) := decodeSS_overBound mk ha hb h
    rw [← hm] at hss
    exact ⟨hss .combine, hss .encrypt, hss .decrypt, hss .combineb⟩

/-- Settles O44: seven fixed frames, run through the decoder. -/
theorem workedFramesDecode : Obligations.WorkedFramesDecode := by
  unfold Obligations.WorkedFramesDecode
  decide

end Sys2Proof

/-! Commands and the record (10_state.md, 20_memory.md): `exec_repliesAlike` says once which parts of the record a
command reads and what it carries over, and `exec_leaves_chain` that only LOAD and steps write it. -/

namespace Sys2Proof.Machine

/-! ### What a command reads of the record -/

/-- When `o` answers from `s` then `o'` answers from `s'` with the same response, and the records left are related by
`ρ`. -/
def RepliesAlike (ρ : Register → Register → Prop) (s s' : State) (o o' : Result) : Prop :=
  ∀ r f, o = .next (s.answered r f) → ∃ r', ρ r r' ∧ o' = .next (s'.answered r' f)

theorem State.answered_inj {s : State} {r r' : Register} {f f' : Frame} (h : s.answered r f = s.answered r' f') :
    r = r' ∧ f = f' :=
  ⟨congrArg State.reg h, State.answered_response_inj (congrArg State.responses h)⟩

section RepliesAlike

variable {ρ : Register → Register → Prop} {s s' : State}

theorem answer_repliesAlike (hρ : ρ s.reg s'.reg) (resp : Response) :
    RepliesAlike ρ s s' (answer resp s) (answer resp s') := by
  intro r f h
  obtain ⟨g, hg, ht⟩ := answer_eq_next.1 h
  obtain ⟨rfl, rfl⟩ := State.answered_inj ht
  exact ⟨s'.reg, hρ, answer_of_frame hg s'⟩

theorem combineStrings_repliesAlike (hρ : ρ s.reg s'.reg) (a b : List Symbol) :
    RepliesAlike ρ s s' (combineStrings a b s) (combineStrings a b s') := by
  rw [combineStrings, combineStrings]
  split
  · exact answer_repliesAlike hρ _
  · exact answer_repliesAlike hρ _

theorem withKeystream_repliesAlike (hρ : ρ s.reg s'.reg) (k : List Symbol) {go go' : Result}
    (h : RepliesAlike ρ s s' go go') : RepliesAlike ρ s s' (withKeystream k s go) (withKeystream k s' go') := by
  rw [withKeystream, withKeystream]
  split
  · exact answer_repliesAlike hρ _
  · exact h

theorem execLoad_repliesAlike (hρ : ρ s.reg s'.reg) (hrefl : ∀ r, ρ r r) (seed : List Symbol) (tap : Int) :
    RepliesAlike ρ s s' (execLoad seed tap s) (execLoad seed tap s') := by
  rw [execLoad, execLoad]
  split
  · exact answer_repliesAlike hρ _
  · split
    · exact answer_repliesAlike hρ _
    · split
      · exact answer_repliesAlike hρ _
      · intro r f h
        rw [answer_of_frame frame_done] at h ⊢
        obtain ⟨rfl, rfl⟩ := State.answered_inj (s := s) (Host.Outcome.next.inj h)
        exact ⟨_, hrefl _, rfl⟩

theorem withRegister_repliesAlike (hρ : ρ s.reg s'.reg) (hl : s'.reg.loaded = s.reg.loaded) {go go' : Result}
    (h : s.reg.loaded = true → RepliesAlike ρ s s' go go') :
    RepliesAlike ρ s s' (withRegister s go) (withRegister s' go') := by
  rw [withRegister, withRegister, hl]
  split
  case isTrue hload => exact h hload
  case isFalse => exact answer_repliesAlike hρ _

theorem advance_repliesAlike {α : Type} {o o' : Option (α × Register)}
    (h : ∀ v r, o = some (v, r) → ∃ r', ρ r r' ∧ o' = some (v, r')) (reply : α → Response) :
    RepliesAlike ρ s s' (advance o reply s) (advance o' reply s') := by
  intro r f hadv
  obtain ⟨v, r1, g, rfl, hg, ht⟩ := advance_eq_next.1 hadv
  obtain ⟨rfl, rfl⟩ := State.answered_inj ht
  obtain ⟨r', hr', rfl⟩ := h v r rfl
  exact ⟨r', hr', advance_some s' hg⟩

/-- A chain of `n` steps from each of the two registers gives the same bits and related registers. -/
def StepsAlike (ρ : Register → Register → Prop) (n : Nat) (r r' : Register) : Prop :=
  ∀ bs r1, Register.shifts n r = some (bs, r1) → ∃ r1', ρ r1 r1' ∧ Register.shifts n r' = some (bs, r1')

theorem StepsAlike.shiftByte (h : StepsAlike ρ 8 s.reg s'.reg) (k : Byte) (r : Register)
    (hk : s.reg.shiftByte = some (k, r)) : ∃ r', ρ r r' ∧ s'.reg.shiftByte = some (k, r') := by
  rw [Register.shiftByte_eq] at hk ⊢
  obtain ⟨⟨bs, r1⟩, hr, heq⟩ := Option.map_eq_some_iff.1 hk
  cases heq
  obtain ⟨r', hr', hs⟩ := h _ _ hr
  exact ⟨r', hr', by rw [hs]; rfl⟩

theorem Register.shifts_one_iff {r r' : Register} {b : Bit} :
    Register.shifts 1 r = some ([b], r') ↔ r.shift = some (b, r') := by
  rw [Register.shifts_succ]
  rcases r.shift with _ | ⟨c, r1⟩ <;> simp [Register.shifts_zero]

theorem StepsAlike.shift (h : StepsAlike ρ 1 s.reg s'.reg) (b : Bit) (r : Register)
    (hb : s.reg.shift = some (b, r)) : ∃ r', ρ r r' ∧ s'.reg.shift = some (b, r') := by
  obtain ⟨r', hr', hs⟩ := h _ _ (Register.shifts_one hb)
  exact ⟨r', hr', Register.shifts_one_iff.1 hs⟩

/-- All that a command reads of the record is whether a Register is loaded, the bits that its steps emit, and, for
RDLAST and RDSTATE, `lastBit` and the report. -/
theorem exec_repliesAlike {i : Instr} (hρ : ρ s.reg s'.reg) (hload : isLoad i = true → ∀ r, ρ r r)
    (hl : s'.reg.loaded = s.reg.loaded) (hsteps : s.reg.loaded = true → StepsAlike ρ (stepCount i) s.reg s'.reg)
    (hlast : i = .rdlast → s.reg.loaded = true → s'.reg.lastBit = s.reg.lastBit)
    (hreport : i = .rdstate → s'.reg.report = s.reg.report) : RepliesAlike ρ s s' (exec i s) (exec i s') := by
  cases i with
  | load seed tap => exact execLoad_repliesAlike hρ (hload rfl) seed tap
  | shift => exact withRegister_repliesAlike hρ hl fun h => advance_repliesAlike (hsteps h).shift _
  | shiftbyte => exact withRegister_repliesAlike hρ hl fun h => advance_repliesAlike (hsteps h).shiftByte _
  | genks steps =>
    refine withRegister_repliesAlike hρ hl fun h => ?_
    split
    · exact answer_repliesAlike hρ _
    · exact advance_repliesAlike (hsteps h) _
  | combine a b => exact combineStrings_repliesAlike hρ a b
  | encrypt p k | decrypt p k => exact withKeystream_repliesAlike hρ k (combineStrings_repliesAlike hρ p k)
  | combineb a b => exact answer_repliesAlike hρ _
  | xorbyte v => exact withRegister_repliesAlike hρ hl fun h => advance_repliesAlike (hsteps h).shiftByte _
  | rdlast =>
    refine withRegister_repliesAlike hρ hl fun h => ?_
    rw [hlast rfl h]
    split
    · exact answer_repliesAlike hρ _
    · exact answer_repliesAlike hρ _
  | rdstate =>
    rw [exec, exec, execRdstate, execRdstate, hreport rfl]
    exact answer_repliesAlike hρ _

end RepliesAlike

/-- Of the state a command reads the record alone. -/
theorem exec_congr {i : Instr} {s s' : State} {r : Register} {f : Frame} (hreg : s'.reg = s.reg)
    (h : exec i s = .next (s.answered r f)) : exec i s' = .next (s'.answered r f) := by
  have halike : RepliesAlike Eq s s' (exec i s) (exec i s') :=
    exec_repliesAlike hreg.symm (fun _ _ => rfl) (by rw [hreg]) (fun _ bs r1 h1 => ⟨r1, rfl, by rw [hreg, h1]⟩)
      (fun _ _ => by rw [hreg]) (fun _ => by rw [hreg])
  obtain ⟨r', rfl, hex⟩ := halike r f h
  exact hex

/-- All that answering a command does outside the record: one legal response is appended (R60, R71, R170). -/
theorem exec_next_answered {i : Instr} {s t : State} (h : exec i s = .next t) :
    ∃ f, legalResponse f = true ∧ t = s.answered t.reg f := by
  rcases exec_next_cases h with ⟨st, -, rfl⟩ | ⟨r, payload, rfl⟩
  · exact ⟨_, frame_legal (frame_raised st), rfl⟩
  · exact ⟨_, by simp [legalResponse], rfl⟩

/-- Settles O33: a command is answered with its fault or with OK. -/
theorem oneResponsePerCommand : Obligations.OneResponsePerCommand := fun _ _ _ h => exec_next_answered h

/-- Settles O32: the fault left the record as it was, and a command reads nothing else. -/
theorem faultRepeats : Obligations.FaultRepeats := by
  intro i s t f h hresp hfault
  obtain ⟨-, rfl⟩ := faultChangesNothing i s t f h hresp hfault
  exact exec_congr (s := s) rfl h

/-! ### `lastBit` and the fields of an unloaded record -/

/-- Chains do not read `lastBit`, and a chain with a step overwrites it (R24). -/
theorem stepsAlike_withLast (n : Nat) (r : Register) (l : Option Bit) :
    StepsAlike (fun r1 r1' => ∃ l', r1' = r1.withLast l') n r (r.withLast l) := by
  intro bs r1 h
  cases n with
  | zero =>
    cases h
    exact ⟨r.withLast l, ⟨l, rfl⟩, rfl⟩
  | succ n => exact ⟨r1, ⟨r1.lastBit, rfl⟩, h⟩

/-- Settles O37: among the commands only RDLAST and RDSTATE read `lastBit`. -/
theorem lastBitInfluencesNoResult : Obligations.LastBitInfluencesNoResult := by
  intro i s t l hi h
  obtain ⟨f, -, ht⟩ := exec_next_answered h
  have halike : RepliesAlike (fun r r' => ∃ l', r' = r.withLast l') s (s.withReg (s.reg.withLast l)) (exec i s)
      (exec i (s.withReg (s.reg.withLast l))) := by
    refine exec_repliesAlike ⟨l, rfl⟩ (fun _ r => ⟨r.lastBit, rfl⟩) rfl (fun _ => stepsAlike_withLast _ s.reg l) ?_ ?_
    · rintro rfl
      cases hi
    · rintro rfl
      cases hi
  obtain ⟨-, ⟨l', rfl⟩, hex⟩ := halike t.reg f (h.trans (congrArg _ ht))
  refine ⟨l', hex.trans ?_⟩
  rw [State.withReg_answered, ← State.answered_withReg s t.reg, ← ht]

/-- Settles O38: without a Register the stepping commands and RDLAST look at `loaded` only, and RDSTATE reports
filler. -/
theorem unloadedFieldsAreNotRead : Obligations.UnloadedFieldsAreNotRead := by
  intro i s t r hs hr h
  obtain ⟨f, -, ht⟩ := exec_next_answered h
  have hcontra {p : Prop} (hl : s.reg.loaded = true) : p := absurd (hl.symm.trans hs) (by decide)
  have halike : RepliesAlike (fun r1 r1' => (r1 = s.reg ∧ r1' = r) ∨ r1' = r1) s (s.withReg r) (exec i s)
      (exec i (s.withReg r)) :=
    exec_repliesAlike (.inl ⟨rfl, rfl⟩) (fun _ _ => .inr rfl) (hr.trans hs.symm) hcontra (fun _ => hcontra)
      (fun _ => by simp [Register.report, hs, hr])
  obtain ⟨r', hr', hex⟩ := halike t.reg f (h.trans (congrArg _ ht))
  refine ⟨_, hex, ?_, hr'⟩
  rw [ht]
  rfl

/-! ### What writes the record -/

/-- A command other than LOAD leaves the record as it was, or as the chain of its steps does (R32). -/
theorem exec_leaves_chain {i : Instr} {s t : State} (hi : isLoad i = false) (h : exec i s = .next t) :
    t.reg = s.reg ∨ ∃ bs, Register.shifts (stepCount i) s.reg = some (bs, t.reg) := by
  obtain ⟨f, -, ht⟩ := exec_next_answered h
  have halike : RepliesAlike (fun _ r => r = s.reg ∨ ∃ bs, Register.shifts (stepCount i) s.reg = some (bs, r)) s s
      (exec i s) (exec i s) :=
    exec_repliesAlike (.inl rfl) (fun hload => absurd hload (by simp [hi])) rfl
      (fun _ bs r1 h1 => ⟨r1, .inr ⟨bs, h1⟩, h1⟩) (fun _ _ => rfl) (fun _ => rfl)
  obtain ⟨r', hr', hex⟩ := halike t.reg f (h.trans (congrArg _ ht))
  obtain rfl := Host.Outcome.next.inj (h.symm.trans hex)
  exact hr'

/-- The commands of R48 run no step. -/
theorem isPure_runs_no_step {i : Instr} (h : isPure i = true) : isLoad i = false ∧ stepCount i = 0 := by
  cases i with
  | combine _ _ | encrypt _ _ | decrypt _ _ | combineb _ _ | rdlast | rdstate => exact ⟨rfl, rfl⟩
  | genks steps =>
    obtain rfl : steps = 0 := of_decide_eq_true h
    exact ⟨rfl, rfl⟩
  | load _ _ | shift | shiftbyte | xorbyte _ => cases h

/-- Settles O34: these commands leave the record as a chain of no step does. -/
theorem pureCommandsLeaveRecord : Obligations.PureCommandsLeaveRecord := by
  intro i s t hi h
  obtain ⟨hload, hcount⟩ := isPure_runs_no_step hi
  rcases exec_leaves_chain hload h with hreg | ⟨bs, hbs⟩
  · exact hreg
  · rw [hcount, Register.shifts_zero] at hbs
    exact (Prod.mk.inj (Option.some.inj hbs)).2.symm

theorem Register.shift_bits_length {r r' : Register} {b : Bit} (h : r.shift = some (b, r')) :
    r'.bits.length = r.bits.length := by
  obtain ⟨d, t, hd, -, -, rfl⟩ := Register.shift_eq_some.1 h
  rw [Register.element_zero] at hd
  obtain ⟨hpos, -⟩ := List.getElem?_eq_some_iff.1 hd
  rw [Register.feed_bits, List.length_append, List.length_drop, List.length_singleton]
  omega

theorem Register.shifts_bits_length {n : Nat} {r r' : Register} {bs : List Bit}
    (h : Register.shifts n r = some (bs, r')) : r'.bits.length = r.bits.length := by
  induction n generalizing r bs with
  | zero => cases h; rfl
  | succ n ih =>
    rw [Register.shifts_succ] at h
    obtain ⟨⟨b, r1⟩, h1, h⟩ := Option.bind_eq_some_iff.1 h
    obtain ⟨⟨cs, r2⟩, h2, h⟩ := Option.map_eq_some_iff.1 h
    cases h
    exact (ih h2).trans (Register.shift_bits_length h1)

/-- Settles O35: a chain of steps writes `bits` and `lastBit`, and as many bits as there were. -/
theorem onlyLoadWritesTap : Obligations.OnlyLoadWritesTap := by
  intro i s t hi h
  rcases exec_leaves_chain hi h with hreg | ⟨bs, hbs⟩
  · rw [hreg]
    exact ⟨rfl, rfl, rfl, rfl⟩
  · obtain ⟨-, hl, hL, htap, -⟩ := Register.shifts_frame hbs
    exact ⟨htap, hL, hl, Register.shifts_bits_length hbs⟩

end Sys2Proof.Machine

/-! The machine (20_memory.md, 30_encoding.md section 1, 70_reset_and_hazards.md): a step is the oldest event; the
invariant holds along every run, and a run over command frames is the commands issued one after another. -/

namespace Sys2Proof.Machine

/-! ### One step -/

theorem step_command {s : State} {f : Frame} {rest : List HostEvent} (h : s.host = .command f :: rest) :
    step s = acceptFrame f { s with host := rest } := by rw [step, h]; rfl

theorem step_reset {s : State} {rest : List HostEvent} (h : s.host = .reset :: rest) :
    step s = .next (resetCore { s with host := rest }) := by rw [step, h]; rfl

theorem step_idle {s : State} (h : s.host = []) : step s = .next s := by rw [step, h]

/-- Settles O45: an accepted frame is its command. -/
theorem stepRunsDecodedCommand : Obligations.StepRunsDecodedCommand :=
  fun _ _ _ _ hhost hdec => (step_command hhost).trans (acceptFrame_ok hdec)

/-- Settles O46: a frame that does not decode is answered by a fault. -/
theorem illegalFrameAnswered : Obligations.IllegalFrameAnswered :=
  fun _ _ _ _ hhost hdec => (step_command hhost).trans (acceptFrame_error hdec)

/-- Settles O47: the reset event writes the record and nothing else. -/
theorem resetEventAndIdle : Obligations.ResetEventAndIdle := ⟨fun _ _ h => step_reset h, fun _ h => step_idle h⟩

/-! ### The invariant -/

theorem Register.sound_of_not_loaded {r : Register} (h : r.loaded = false) : r.Sound :=
  fun hl => absurd (hl.symm.trans h) (by decide)

/-- Settles O49: no Register is loaded, and no response was returned. -/
theorem resetMeetsInvariant : Obligations.ResetMeetsInvariant :=
  fun _ _ => ⟨Register.sound_of_not_loaded rfl, rfl⟩

theorem State.Inv.answered {s : State} {r : Register} {f : Frame} (h : s.Inv) (hr : r.Sound)
    (hf : legalResponse f = true) : (s.answered r f).Inv := by
  obtain ⟨-, hlegal⟩ := h
  exact ⟨hr, by simp [hlegal, hf]⟩

/-- RDSTATE's answer while nothing is loaded (C8). -/
theorem execRdstate_of_not_loaded {s : State} (hl : s.reg.loaded = false) :
    exec .rdstate s = .next (s.answered s.reg (List.replicate 12 0x00#8)) := by
  have hreport : s.reg.report = .record false 0 0 false false [] := by simp [Register.report, hl]
  exact answer_of_frame (by rw [hreport]; rfl) s

/-- While nothing is loaded every command that fits a frame is answered; only an accepted LOAD writes the record. -/
theorem exec_answers_of_not_loaded {i : Instr} {s : State} (hwf : i.wellFormed .unbounded = true)
    (hno : ∀ seed tap, i = .load seed tap → ¬ LoadAccepted seed tap) (hl : s.reg.loaded = false) :
    ∃ f, exec i s = .next (s.answered s.reg f) := by
  cases i with
  | load seed tap => exact execLoad_refused s (hno seed tap rfl)
  | shift | shiftbyte | genks _ | xorbyte _ | rdlast => exact ⟨_, exec_of_not_loaded rfl hl⟩
  | combine a b =>
    obtain ⟨ha, hb⟩ := lengths_of_okLength hwf
    exact combineStrings_answers s ha hb
  | encrypt p k | decrypt p k =>
    obtain ⟨hp, hk⟩ := lengths_of_okLength hwf
    exact withKeystream_answers s hp hk
  | combineb a b =>
    obtain ⟨ha, hb⟩ := lengths_of_okLength hwf
    exact execCombineb_answers s ha hb
  | rdstate => exact ⟨_, execRdstate_of_not_loaded hl⟩

/-- On a sound record every command that fits a frame is answered, and leaves a sound record. -/
theorem exec_answers_sound {i : Instr} {s : State} (hwf : i.wellFormed .unbounded = true) (hs : s.reg.Sound) :
    ∃ r f, r.Sound ∧ exec i s = .next (s.answered r f) := by
  by_cases hacc : ∃ seed tap, i = .load seed tap ∧ LoadAccepted seed tap
  · obtain ⟨seed, tap, rfl, hacc⟩ := hacc
    obtain ⟨bs, -, hsound, hex⟩ := load_constructs_sound s hacc hwf
    exact ⟨_, _, hsound, hex⟩
  · have hno : ∀ seed tap, i = .load seed tap → ¬ LoadAccepted seed tap :=
      fun seed tap hi hl => hacc ⟨seed, tap, hi, hl⟩
    rcases hl : s.reg.loaded with _ | _
    · obtain ⟨f, hex⟩ := exec_answers_of_not_loaded hwf hno hl
      exact ⟨s.reg, f, hs, hex⟩
    · obtain ⟨bs, r, f, hr, hex⟩ := exec_runsItsSteps hwf hno hl hs
      obtain ⟨-, -, -, -, hkeep⟩ := Register.shifts_frame hr
      exact ⟨r, f, hkeep hs, hex⟩

/-- A presented frame is answered from every state that meets the invariant, which holds again. -/
theorem acceptFrame_keepsInv (f : Frame) {s : State} (h : s.Inv) :
    ∃ r g, acceptFrame f s = .next (s.answered r g) ∧ (s.answered r g).Inv := by
  rcases hdec : decodeFrame s.limits f with e | i
  · exact ⟨_, _, acceptFrame_error hdec, h.answered h.1 (by decide)⟩
  · obtain ⟨hwf, -⟩ := decodeFrame_eq_ok.1 hdec
    obtain ⟨r, g, hr, hex⟩ := exec_answers_sound (wellFormed_iff.1 hwf).1 h.1
    obtain ⟨g', hlegal, ht⟩ := exec_next_answered hex
    obtain ⟨-, rfl⟩ := State.answered_inj ht
    exact ⟨r, g, (acceptFrame_ok hdec).trans hex, h.answered hr hlegal⟩

/-- Settles O50: the step is one event, and each event keeps the invariant. -/
theorem stepNeverStopsAndKeepsInv : Obligations.StepNeverStopsAndKeepsInv := by
  intro s h
  rcases hhost : s.host with _ | ⟨f | _, rest⟩
  · exact ⟨s, step_idle hhost, h, rfl, hhost⟩
  · obtain ⟨r, g, hacc, hinv⟩ := acceptFrame_keepsInv f (s := { s with host := rest }) h
    exact ⟨_, (step_command hhost).trans hacc, hinv, rfl, rfl⟩
  · exact ⟨_, step_reset hhost, ⟨Register.sound_of_not_loaded rfl, h.2⟩, rfl, rfl⟩

/-! ### Commands and their frames -/

/-- A command is the only one that its frame decodes to. -/
theorem encode_injective {i j : Instr} (hi : i.wellFormed .unbounded = true) (hj : j.wellFormed .unbounded = true)
    (h : encode i = encode j) : i = j :=
  Except.ok.inj ((decodeFrame_encode hi).symm.trans (h ▸ decodeFrame_encode hj))

/-- Settles O54: the frame of a command decodes to it within the bounds, and to nothing above them. -/
theorem issuedCommandIsItsFrame : Obligations.IssuedCommandIsItsFrame := by
  intro i s hwf
  rcases hlim : i.withinLimits s.limits with _ | _
  · rw [acceptCommand_of_overBound hlim]
    rcases hdec : decodeFrame s.limits (encode i) with e | j
    · exact (acceptFrame_error hdec).symm
    · obtain ⟨hj, henc⟩ := decodeFrame_eq_ok.1 hdec
      obtain ⟨hj, hjlim⟩ := wellFormed_iff.1 hj
      obtain rfl := encode_injective hwf hj henc
      exact absurd (hjlim.symm.trans hlim) (by decide)
  · rw [acceptCommand_of_within hlim, acceptFrame_ok (decodeFrame_encode (wellFormed_iff.2 ⟨hwf, hlim⟩))]

/-- What issuing a command does: it appends one response, the one that is read. -/
theorem issue_answered {i : Instr} {s t : State} {f : Frame} (h : issue i s = some (f, t)) :
    acceptCommand i s = .next t ∧ t = s.answered t.reg f := by
  obtain ⟨hacc, hlast⟩ := issue_eq_some.1 h
  have hans : ∃ g, t = s.answered t.reg g := by
    rcases hlim : i.withinLimits s.limits with _ | _
    · rw [acceptCommand_of_overBound hlim] at hacc
      cases hacc
      exact ⟨_, rfl⟩
    · rw [acceptCommand_of_within hlim] at hacc
      obtain ⟨g, -, ht⟩ := exec_next_answered hacc
      exact ⟨g, ht⟩
  obtain ⟨g, ht⟩ := hans
  rw [ht, State.answered_responses, List.getLast?_concat, Option.some_inj] at hlast
  exact ⟨hacc, hlast ▸ ht⟩

/-- Of the state a command that the host issues reads the record and the bounds. -/
theorem acceptCommand_congr {i : Instr} {s s' : State} {r : Register} {f : Frame} (hreg : s'.reg = s.reg)
    (hlim : s'.limits = s.limits) (h : acceptCommand i s = .next (s.answered r f)) :
    acceptCommand i s' = .next (s'.answered r f) := by
  rcases hw : i.withinLimits s.limits with _ | _
  · rw [acceptCommand_of_overBound hw] at h
    obtain ⟨rfl, rfl⟩ := State.answered_inj (Host.Outcome.next.inj h)
    rw [acceptCommand_of_overBound (hlim ▸ hw), hreg]
  · rw [acceptCommand_of_within hw] at h
    rw [acceptCommand_of_within (hlim ▸ hw)]
    exact exec_congr hreg h

/-- The step on the frame of an issued command. -/
theorem step_issued {i : Instr} {s t : State} {f : Frame} {pending rest : List HostEvent}
    (hwf : i.wellFormed .unbounded = true) (hhost : s.host = .command (encode i) :: pending)
    (h : issue i { s with host := rest } = some (f, t)) :
    t.host = rest ∧ t.responses = s.responses ++ [f] ∧ step s = .next { t with host := pending } := by
  obtain ⟨hacc, ht⟩ := issue_answered h
  have hframe := issuedCommandIsItsFrame i { s with host := pending } hwf
  refine ⟨by rw [ht]; rfl, by rw [ht]; rfl, ?_⟩
  have hnext := acceptCommand_congr (s := { s with host := rest }) (s' := { s with host := pending }) rfl rfl
    (hacc.trans (congrArg _ ht))
  rw [step_command hhost, ← hframe, hnext, ht]
  rfl

theorem core_run_succ {s t : State} (h : step s = .next t) (n : Nat) :
    Sys2Proof.core.run (n + 1) s = Sys2Proof.core.run n t := by
  have hcore : Sys2Proof.core.step s = .next t := h
  simp only [Host.Core.run, hcore]

/-- Settles O51: the frames are taken one by one, each as the command it encodes. -/
theorem commandsRunInHostOrder : Obligations.CommandsRunInHostOrder := by
  intro cmds rest s t fs hwf hhost h
  induction cmds generalizing s fs with
  | nil =>
    cases h
    exact ⟨by rw [← show s.host = rest from hhost]; rfl, rfl, (List.append_nil _).symm⟩
  | cons i is ih =>
    rw [List.forall_mem_cons] at hwf
    rw [issueAll_cons] at h
    obtain ⟨⟨f, s1⟩, h1, h⟩ := Option.bind_eq_some_iff.1 h
    obtain ⟨⟨gs, s2⟩, h2, heq⟩ := Option.map_eq_some_iff.1 h
    cases heq
    obtain ⟨hrest, hresp, hstep⟩ := step_issued hwf.1 hhost h1
    subst hrest
    obtain ⟨hrun, hthost, htresp⟩ :=
      ih { s1 with host := is.map (fun i => HostEvent.command (encode i)) ++ s1.host } gs hwf.2 rfl h2
    refine ⟨?_, hthost, by rw [htresp, hresp, List.append_assoc]; rfl⟩
    exact (core_run_succ hstep is.length).trans hrun

end Sys2Proof.Machine

/-! The Register family (40_register.md) and GENKS (41_keystream.md): every command of them is a chain of steps, and a
chain emits the recurrence that extends the register's contents. -/

namespace Sys2Proof.Machine

/-! ### LOAD -/

/-- An accepted seed is the characters of some bits, one at least. -/
theorem LoadAccepted.exists_bits {seed : List Symbol} {tap : Int} (h : LoadAccepted seed tap) :
    ∃ bs, seed = symsOf bs ∧ bs ≠ [] ∧ 1 ≤ tap ∧ tap ≤ bs.length := by
  obtain ⟨hne, hbin, h1, h2⟩ := h
  obtain ⟨bs, rfl⟩ := hbin.exists_bits
  rw [symsOf_length] at h2
  exact ⟨bs, rfl, fun h0 => hne (congrArg symsOf h0), h1, h2⟩

theorem symOf_injective : Function.Injective symOf := by decide

theorem symsOf_getElem?_eq_some {bs : List Bit} {i : Nat} {b : Bit} :
    (symsOf bs)[i]? = some (symOf b) ↔ bs[i]? = some b := by
  rw [symsOf, List.getElem?_map, ← Option.map_some, (Option.map_injective symOf_injective).eq_iff]

/-- Settles O1: the constructed Register holds the seed's bits. -/
theorem loadConstructsRegister : Obligations.LoadConstructsRegister := by
  intro seed tap s hacc
  obtain ⟨bs, rfl, hne, h1, h2⟩ := hacc.exists_bits
  refine ⟨Register.construct bs tap, execLoad_symsOf s hne h1 h2, rfl, (symsOf_length bs).symm, rfl, rfl,
    (symsOf_length bs).symm, fun i _ => ⟨?_, ?_⟩⟩
  · exact (symsOf_getElem?_eq_some (b := false)).1
  · exact (symsOf_getElem?_eq_some (b := true)).1

/-- Settles O52: the three faults are raised, and these are their codes. -/
theorem documentFaultNumbers : Obligations.DocumentFaultNumbers := by
  intro seed p tap s
  refine ⟨fun hseed => ?_, fun hne hbin htap => ?_, ?_, ?_⟩
  · exact exec_of_raises (.invalidSeed hseed)
  · exact exec_of_raises (.invalidTap hne hbin htap)
  · exact exec_of_raises .encryptKeystream
  · exact exec_of_raises .decryptKeystream

/-! ### RDLAST and RDSTATE -/

/-- Settles O7: the record is read, and `lastBit` answered when it has a value. -/
theorem rdlastReturnsLastBit : Obligations.RdlastReturnsLastBit := by
  refine fun s hl => ⟨fun b hb => ?_, fun hnone => exec_of_raises (.noValue hl hnone)⟩
  rw [exec, execRdlast, withRegister_of_loaded hl, hb]
  exact answer_of_frame (frame_bit b) s

/-- The report of a record whose fields fit the frame (R71, R108). -/
theorem Register.Sound.report_frame_eq {r : Register} (h : r.Sound) (hl : r.loaded = true) :
    r.report.frame = some ([0x00#8, 0x01#8] ++ u32Bytes r.L ++ i32Bytes r.tap ++
      [bitByte r.lastValid, bitByte r.lastOrZero] ++ symsOf r.bits) := by
  obtain ⟨hlen, h1, hL, ht1, ht2, ht3, -⟩ := h hl
  have hfit : fitsU32 r.L = true := by simpa [fitsU32] using hL
  have htap : fitsI32 r.tap = true := fitsI32_iff.2 ⟨by omega, ht3⟩
  simp [Register.report, Response.frame, hl, hfit, htap, hlen, bitByte]

/-- The two bytes that RDSTATE reports `lastBit` in. -/
theorem lastBit_bytes (r : Register) : [bitByte r.lastValid, bitByte r.lastOrZero] =
    (match r.lastBit with
     | none => [0x00#8, 0x00#8]
     | some false => [0x01#8, 0x00#8]
     | some true => [0x01#8, 0x01#8]) := by
  rw [Register.lastValid, Register.lastOrZero]
  rcases r.lastBit with _ | _ | _ <;> rfl

/-- Settles O8: the response is the report's frame. -/
theorem rdstateReportsRecord : Obligations.RdstateReportsRecord := by
  refine fun s hs => ⟨fun hl => ?_, execRdstate_of_not_loaded⟩
  have hframe := hs.report_frame_eq hl
  rw [lastBit_bytes] at hframe
  exact answer_of_frame hframe s

/-- Settles O9: these are the commands that need a Register. -/
theorem noRegisterBeforeLoad : Obligations.NoRegisterBeforeLoad := by
  intro i s hl hi
  rcases hi with rfl | rfl | ⟨n, rfl⟩ | ⟨v, rfl⟩ | rfl <;> exact exec_of_not_loaded rfl hl

/-- Settles O48: the reset state has no Register. -/
theorem resetHasNoRegister : Obligations.ResetHasNoRegister := by
  refine ⟨rfl, rfl, fun i hi => ?_, execRdstate_of_not_loaded rfl⟩
  rcases hi with rfl | rfl | ⟨v, rfl⟩ | ⟨n, rfl⟩ | rfl <;> exact exec_of_not_loaded rfl rfl

/-- Settles O12: the steps are checked before any is run. -/
theorem genksRefusesNegativeSteps : Obligations.GenksRefusesNegativeSteps :=
  fun _ _ hl hneg => exec_of_raises (.invalidSteps hl hneg)

/-! ### One step, and chains of steps as commands -/

theorem execShift_of_shift {s : State} {b : Bit} {r : Register} (hl : s.reg.loaded = true)
    (h : s.reg.shift = some (b, r)) : exec .shift s = .next (s.answered r [0x00#8, bitByte b]) := by
  rw [exec, execShift, withRegister_of_loaded hl, h]
  exact advance_some s (frame_bit b)

/-- Settles O4: SHIFT is one step of the register. -/
theorem shiftMovesAndFeeds : Obligations.ShiftMovesAndFeeds := by
  intro s hs hl
  obtain ⟨d, t, hd, ht, hsh⟩ := hs.shift hl
  obtain ⟨hlen, h1, -⟩ := hs hl
  refine ⟨d, t, _, hd, ht, execShift_of_shift hl hsh, hl, rfl, rfl, rfl, ?_, fun i hi => ?_, ?_⟩
  · simp; omega
  · rw [Register.feed_bits, List.getElem?_append_left (by simp; omega), List.getElem?_drop, Nat.add_comm]
  · rw [Register.feed_bits, List.getElem?_append_right (by simp; omega)]
    simp [hlen]

theorem execShiftbyte_of_shifts {s : State} {bs : List Bit} {r : Register} (hl : s.reg.loaded = true)
    (h : Register.shifts 8 s.reg = some (bs, r)) :
    exec .shiftbyte s = .next (s.answered r [0x00#8, packByte bs]) := by
  rw [exec, execShiftbyte, withRegister_of_loaded hl, Register.shiftByte_eq, h]
  exact advance_some s (frame_byte _)

theorem execXorbyte_of_shifts {s : State} {bs : List Bit} {r : Register} (v : Byte) (hl : s.reg.loaded = true)
    (h : Register.shifts 8 s.reg = some (bs, r)) :
    exec (.xorbyte v) s = .next (s.answered r [0x00#8, v ^^^ packByte bs]) := by
  rw [exec, execXorbyte, withRegister_of_loaded hl, Register.shiftByte_eq, h]
  exact advance_some s (frame_byte _)

/-- GENKS of as many steps as its frame's length field can count. -/
theorem execGenks_of_shifts {s : State} {n : Nat} {bs : List Bit} {r : Register} (hl : s.reg.loaded = true)
    (hn : n < 2 ^ 32) (h : Register.shifts n s.reg = some (bs, r)) :
    exec (.genks n) s = .next (s.answered r (0x00#8 :: (u32Bytes n ++ symsOf bs))) := by
  obtain ⟨hlen, -⟩ := Register.shifts_frame h
  have hstr : (symsOf bs).length = n := (symsOf_length bs).trans hlen
  have hneg : ¬ ((n : Int) < 0) := by omega
  have hframe := frame_str (hstr.symm ▸ hn : (symsOf bs).length < 2 ^ 32)
  rw [strBytes, hstr] at hframe
  rw [exec, execGenks, withRegister_of_loaded hl, if_neg hneg, Int.toNat_natCast, h]
  exact advance_some s hframe

/-- Settles O6: both commands run the same eight steps. -/
theorem xorbyteMasksWithShiftbyte : Obligations.XorbyteMasksWithShiftbyte := by
  intro v s hs hl
  obtain ⟨bs, r, hr, -⟩ := hs.shifts hl 8
  exact ⟨packByte bs, r, execShiftbyte_of_shifts hl hr, execXorbyte_of_shifts v hl hr⟩

/-- A chain of steps as SHIFT commands. -/
theorem issueAll_shift {n : Nat} {s : State} {bs : List Bit} {r : Register} (hl : s.reg.loaded = true)
    (h : Register.shifts n s.reg = some (bs, r)) :
    ∃ t, issueAll (List.replicate n .shift) s = some (bs.map (fun b => [0x00#8, bitByte b]), t) ∧ t.reg = r := by
  induction n generalizing s bs with
  | zero =>
    cases h
    exact ⟨s, rfl, rfl⟩
  | succ n ih =>
    rw [Register.shifts_succ] at h
    obtain ⟨⟨b, r1⟩, h1, h⟩ := Option.bind_eq_some_iff.1 h
    obtain ⟨⟨cs, r2⟩, h2, h⟩ := Option.map_eq_some_iff.1 h
    cases h
    obtain ⟨-, hloaded, -⟩ := Register.shifts_frame (Register.shifts_one h1)
    obtain ⟨t, hall, ht⟩ := ih (s := s.answered r1 [0x00#8, bitByte b]) (hloaded.trans hl) h2
    exact ⟨t, by simp [List.replicate_succ, issueAll_cons, issue_of_exec rfl (execShift_of_shift hl h1), hall], ht⟩

/-- The packing of eight bits, the first with weight 128 (R104). -/
theorem packByte_eight (b0 b1 b2 b3 b4 b5 b6 b7 : Bit) :
    packByte [b0, b1, b2, b3, b4, b5, b6, b7] = BitVec.ofNat 8 (128 * b0.toNat + 64 * b1.toNat + 32 * b2.toNat +
      16 * b3.toNat + 8 * b4.toNat + 4 * b5.toNat + 2 * b6.toNat + b7.toNat) := by
  simp only [packByte, packValue, List.foldl]
  congr 1
  omega

theorem exists_eight {α : Type} {l : List α} (h : l.length = 8) :
    ∃ a b c d e f g i, l = [a, b, c, d, e, f, g, i] := by
  match l, h with
  | [a, b, c, d, e, f, g, i], _ => exact ⟨a, b, c, d, e, f, g, i, rfl⟩

/-- Settles O5: SHIFTBYTE and the eight SHIFT commands run one chain of eight steps. -/
theorem shiftbyteIsEightShifts : Obligations.ShiftbyteIsEightShifts := by
  intro s hs hl
  obtain ⟨bs, r, hr, hlen, -⟩ := hs.shifts hl 8
  obtain ⟨t, hall, rfl⟩ := issueAll_shift hl hr
  obtain ⟨b0, b1, b2, b3, b4, b5, b6, b7, rfl⟩ := exists_eight hlen
  exact ⟨b0, b1, b2, b3, b4, b5, b6, b7, t, hall, packByte_eight .. ▸ execShiftbyte_of_shifts hl hr⟩

/-! ### GENKS -/

/-- Settles O11: GENKS and the SHIFT commands run one chain. -/
theorem genksIsRepeatedShift : Obligations.GenksIsRepeatedShift := by
  intro s n hs hl hn
  obtain ⟨bs, r, hr, hlen, -⟩ := hs.shifts hl n
  obtain ⟨t, hall, rfl⟩ := issueAll_shift hl hr
  exact ⟨bs, t, hlen, hall, execGenks_of_shifts hl (by omega) hr⟩

/-- Settles O13: the chain of GENKS `m + n` is that of GENKS `m` and then that of GENKS `n`. -/
theorem genksContinues : Obligations.GenksContinues := by
  intro s m n hs hl hmn
  obtain ⟨bs, r1, hr1, hm, hl1, -, -, hs1⟩ := hs.shifts hl m
  obtain ⟨cs, r2, hr2, hn, -⟩ := hs1.shifts hl1 n
  refine ⟨symsOf bs, symsOf cs, r1, r2, (symsOf_length bs).trans hm, (symsOf_length cs).trans hn,
    execGenks_of_shifts hl (by omega) hr1, ?_, ?_⟩
  · rintro t rfl
    exact execGenks_of_shifts hl1 (by omega) hr2
  · rw [symsOf, symsOf, ← List.map_append]
    exact execGenks_of_shifts hl (by omega) (Register.shifts_trans hr1 hr2)

/-- The bits of a packed byte are the eight bits, in order (R42). -/
theorem byteBits_packByte {bs : List Bit} (h : bs.length = 8) : byteBits (packByte bs) = bs := by
  obtain ⟨b0, b1, b2, b3, b4, b5, b6, b7, rfl⟩ := exists_eight h
  revert b0 b1 b2 b3 b4 b5 b6 b7
  decide

/-- A chain of eight times `m` steps as SHIFTBYTE commands. -/
theorem issueAll_shiftbyte (m : Nat) {s : State} (hs : s.reg.Sound) (hl : s.reg.loaded = true) :
    ∃ (vs : List Byte) (t : State), vs.length = m ∧
      issueAll (List.replicate m .shiftbyte) s = some (vs.map (fun v => [0x00#8, v]), t) ∧
      Register.shifts (8 * m) s.reg = some (vs.flatMap byteBits, t.reg) := by
  induction m generalizing s with
  | zero => exact ⟨[], s, rfl, rfl, rfl⟩
  | succ m ih =>
    obtain ⟨bs, r, hr, hlen, hl', -, -, hs'⟩ := hs.shifts hl 8
    obtain ⟨vs, t, hm, hall, ht⟩ := ih (s := s.answered r [0x00#8, packByte bs]) hs' hl'
    refine ⟨packByte bs :: vs, t, by rw [List.length_cons, hm], ?_, ?_⟩
    · simp [List.replicate_succ, issueAll_cons, issue_of_exec rfl (execShiftbyte_of_shifts hl hr), hall]
    · rw [List.flatMap_cons, byteBits_packByte hlen, Nat.mul_succ, Nat.add_comm]
      exact Register.shifts_trans hr ht

/-- Settles O14: the SHIFTBYTE commands and GENKS run one chain. -/
theorem byteCommandsConsumeKeystream : Obligations.ByteCommandsConsumeKeystream := by
  intro s m hs hl hm
  obtain ⟨vs, t, hlen, hall, ht⟩ := issueAll_shiftbyte m hs hl
  exact ⟨vs, t, hlen, hall, execGenks_of_shifts hl (by omega) ht⟩

/-! ### The recurrence -/

/-- `σ` begins with the contents of `r` and goes on by the recurrence of its tap (40_register.md section 2). -/
def Extends (r : Register) (σ : Nat → Bit) : Prop :=
  (∀ i : Nat, i < r.L → r.bits[i]? = some (σ i)) ∧
    ∀ j : Nat, σ (r.L + j) = (σ j ^^ σ (j + r.L - r.tap.toNat))

/-- A step emits the next bit of the sequence, and the register moves along it. -/
theorem Extends.shift {r : Register} {σ : Nat → Bit} (h : Extends r σ) (hs : r.Sound) (hl : r.loaded = true) :
    r.shift = some (σ r.L, r.feed (σ r.L)) ∧ Extends (r.feed (σ r.L)) fun k => σ (k + 1) := by
  obtain ⟨hbits, hrec⟩ := h
  obtain ⟨hlen, h1, -, ht1, ht2, -⟩ := hs hl
  obtain ⟨d, t, hd, ht, hsh⟩ := hs.shift hl
  rw [hbits 0 h1, Option.some_inj] at hd
  rw [hbits _ (by omega), Option.some_inj] at ht
  have hnew : σ r.L = (d ^^ t) := by rw [← hd, ← ht, ← Nat.add_zero r.L, hrec 0, Nat.zero_add, Nat.add_zero]
  refine ⟨by rw [hnew, hsh], fun i hi => ?_, fun j => ?_⟩
  · rw [Register.feed_L] at hi
    rw [Register.feed_bits]
    rcases Nat.lt_or_ge (i + 1) r.L with hi' | hi'
    · rw [List.getElem?_append_left (by simp; omega), List.getElem?_drop, Nat.add_comm, hbits _ hi']
    · rw [List.getElem?_append_right (by simp; omega), List.length_drop]
      have hlast : r.L = i + 1 := by omega
      simp [hlen, hlast]
  · have hj : j + r.L - r.tap.toNat + 1 = j + 1 + r.L - r.tap.toNat := by omega
    change σ (r.L + (j + 1)) = (σ (j + 1) ^^ σ (j + r.L - r.tap.toNat + 1))
    rw [hrec (j + 1), hj]

/-- A chain of `n` steps emits `n` bits of the sequence and leaves the register `n` further along it. -/
theorem Extends.shifts {r : Register} {σ : Nat → Bit} (h : Extends r σ) (hs : r.Sound) (hl : r.loaded = true)
    (n : Nat) : ∃ r', Register.shifts n r = some ((List.range n).map (fun j => σ (r.L + j)), r') ∧
      Extends r' fun k => σ (n + k) := by
  induction n generalizing r σ with
  | zero => exact ⟨r, rfl, by simpa using h⟩
  | succ n ih =>
    obtain ⟨hsh, hnext⟩ := h.shift hs hl
    obtain ⟨r', hr', hext⟩ := ih hnext (hs.feed _) hl
    refine ⟨r', ?_, ?_⟩
    · rw [Register.shifts_succ, hsh, Option.bind_some, hr']
      simp [List.range_succ_eq_map, Nat.add_assoc, Nat.add_comm, Nat.add_left_comm]
    · simpa [Nat.add_assoc, Nat.add_comm, Nat.add_left_comm] using hext

/-- The contents of a sound loaded register, told by a sequence that begins with them. -/
theorem Extends.bits_eq {r : Register} {σ : Nat → Bit} (h : Extends r σ) (hlen : r.bits.length = r.L) :
    r.bits = (List.range r.L).map σ := by
  refine List.ext_getElem (by simpa using hlen) fun i h1 h2 => ?_
  have hi := h.1 i (hlen ▸ h1)
  rw [List.getElem?_eq_getElem h1, Option.some_inj] at hi
  simpa using hi

/-- GENKS emits the sequence that extends the register. -/
theorem execGenks_of_extends {s : State} {σ : Nat → Bit} {n : Nat} (h : Extends s.reg σ) (hs : s.reg.Sound)
    (hl : s.reg.loaded = true) (hn : n < 2 ^ 31) :
    ∃ r, exec (.genks n) s =
        .next (s.answered r (0x00#8 :: (u32Bytes n ++ (List.range n).map fun j => symOf (σ (s.reg.L + j))))) ∧
      r.bits = (List.range s.reg.L).map (fun i => σ (n + i)) ∧
      r.loaded = true ∧ r.L = s.reg.L ∧ r.tap = s.reg.tap ∧
      r.lastBit = if n = 0 then s.reg.lastBit else some (σ (s.reg.L + n - 1)) := by
  obtain ⟨r, hr, hext⟩ := h.shifts hs hl n
  obtain ⟨-, hloaded, hL, htap, hkeep⟩ := Register.shifts_frame hr
  obtain ⟨hlen, -⟩ := hkeep hs (hloaded.trans hl)
  have hex := execGenks_of_shifts hl (by omega) hr
  rw [symsOf, List.map_map] at hex
  refine ⟨r, hex, hL ▸ hext.bits_eq hlen, hloaded.trans hl, hL, htap, ?_⟩
  rw [Register.shifts_lastBit hr]
  cases n with
  | zero => rfl
  | succ n => simp [List.range_succ]

/-- Settles O10: the sequence extends the register. -/
theorem genksFollowsRecurrence : Obligations.GenksFollowsRecurrence :=
  fun _ _ _ hs hl hn hbits hrec => execGenks_of_extends ⟨hbits, hrec⟩ hs hl hn

theorem map_range_const {α : Type} (n : Nat) (a : α) : (List.range n).map (fun _ => a) = List.replicate n a := by
  rw [List.map_const', List.length_range]

/-- With `tap = L` the two bits of a step are the same one, so the contents go on with zeros (40_register.md
section 4). -/
theorem extends_of_tap_eq_length {r : Register} (hlen : r.bits.length = r.L) (htap : r.tap = r.L) :
    Extends r fun k => r.bits.getD k false := by
  refine ⟨fun i hi => ?_, fun j => ?_⟩
  · simp [List.getD, List.getElem?_eq_getElem (hlen.symm ▸ hi : i < r.bits.length)]
  · have hj : j + r.L - r.tap.toNat = j := by omega
    rw [hj, Bool.xor_self]
    simp [List.getD, List.getElem?_eq_none (by omega : r.bits.length ≤ r.L + j)]

/-- Settles O15: the contents followed by zeros are the sequence that extends the register. -/
theorem tapAtLengthEmitsZeros : Obligations.TapAtLengthEmitsZeros := by
  intro s n hs hl htap hn
  obtain ⟨hlen, -⟩ := hs hl
  obtain ⟨r, hex, hbits, hrl, hrL, hrt, -⟩ := execGenks_of_extends (extends_of_tap_eq_length hlen htap) hs hl hn
  have hzero (j : Nat) : symOf (s.reg.bits.getD (s.reg.L + j) false) = sym0 := by
    simp [List.getD, List.getElem?_eq_none (by omega : s.reg.bits.length ≤ s.reg.L + j), symOf]
  simp only [hzero, map_range_const] at hex
  refine ⟨r, hex, ?_, hrl, hrL, hrt⟩
  rw [hbits]
  refine List.ext_getElem (by simp; omega) fun i h1 h2 => ?_
  rw [List.getElem_map, List.getElem_range]
  rcases Nat.lt_or_ge (n + i) s.reg.bits.length with h | h
  · rw [List.getElem_append_left (by simp; omega)]
    simp [List.getD, h]
  · rw [List.getElem_append_right (by simp; omega)]
    simp [List.getD, h]

/-- Settles O16: the sequence of zeros extends a register of zeros, whatever its tap. -/
theorem zeroRegisterStaysZero : Obligations.ZeroRegisterStaysZero := by
  intro s n hs hl hzero hn
  obtain ⟨hlen, -⟩ := hs hl
  have hbits : s.reg.bits = List.replicate s.reg.L false := List.eq_replicate_iff.2 ⟨hlen, hzero⟩
  have hext : Extends s.reg fun _ => false :=
    ⟨fun i hi => by rw [hbits]; simp [hi], fun _ => rfl⟩
  obtain ⟨r, hex, hr, hrl, hrL, hrt, -⟩ := execGenks_of_extends hext hs hl hn
  rw [map_range_const] at hex hr
  exact ⟨r, hex, hr.trans hbits.symm, hrl, hrL, hrt⟩

/-! ### GENERATEKEYSTREAM, and the runs that begin with a LOAD, under the bounds -/

/-- The LOAD that a run begins with, when the seed is accepted and fits a frame. -/
theorem LoadAccepted.constructs {seed : List Symbol} {tap : Int} (h : LoadAccepted seed tap)
    (hlen : seed.length < 2 ^ 32) (htap : tap < 2 ^ 31) :
    ∃ r, r.Sound ∧ r.loaded = true ∧ ∀ s, exec (.load seed tap) s = .next (s.answered r [0x00#8]) := by
  obtain ⟨bs, rfl, hne, h1, h2⟩ := h.exists_bits
  rw [symsOf_length] at hlen
  exact ⟨_, Register.construct_sound hne hlen h1 h2 htap, rfl, fun s => execLoad_symsOf s hne h1 h2⟩

theorem AdmitsLength.withinLimits {s : State} {n : Nat} (h : AdmitsLength s n) :
    Instr.withinLimits s.limits (.genks n) = true := withinBound_iff.2 h

/-- GENERATEKEYSTREAM within the bounds issues its two commands and is done with the second's string. -/
theorem generateKeystream_of_exec {seed ks : List Symbol} {tap : Int} {n : Nat} {s : State} {r r' : Register}
    (hseed : AdmitsSeed s seed) (hn : AdmitsLength s n)
    (hload : exec (.load seed tap) s = .next (s.answered r [0x00#8]))
    (hgen : ∀ t : State, t.reg = r → exec (.genks n) t = .next (t.answered r' (0x00#8 :: (u32Bytes n ++ ks)))) :
    generateKeystream seed tap n s =
        .done ks ((s.answered r [0x00#8]).answered r' (0x00#8 :: (u32Bytes n ++ ks))) ∧
      issueAll (generateKeystreamCommands seed tap n) s = some ([[0x00#8], 0x00#8 :: (u32Bytes n ++ ks)],
        (s.answered r [0x00#8]).answered r' (0x00#8 :: (u32Bytes n ++ ks))) := by
  have hgen' := issue_of_exec (s := s.answered r [0x00#8]) hn.withinLimits (hgen _ rfl)
  constructor
  · rw [generateKeystream, afterLoad_of_ok (hseed.withinLimits tap) hload, hgen']
    rfl
  · rw [generateKeystreamCommands, issueAll_cons, issue_of_exec (hseed.withinLimits tap) hload, Option.bind_some,
      issueAll_cons, hgen']
    rfl

/-- The keystream of an accepted seed and tap: the Register that the LOAD constructs, and what GENKS answers from it. -/
theorem LoadAccepted.keystream {seed : List Symbol} {tap : Int} {n : Nat} (h : LoadAccepted seed tap)
    (hlen : seed.length < 2 ^ 32) (htap : tap < 2 ^ 31) (hn : n < 2 ^ 31) :
    ∃ r r' bs, bs.length = n ∧ (∀ s, exec (.load seed tap) s = .next (s.answered r [0x00#8])) ∧
      ∀ t : State, t.reg = r → exec (.genks n) t = .next (t.answered r' (0x00#8 :: (u32Bytes n ++ symsOf bs))) := by
  obtain ⟨r, hs, hl, hload⟩ := h.constructs hlen htap
  obtain ⟨bs, r', hr', hbs, -⟩ := hs.shifts hl n
  refine ⟨r, r', bs, hbs, hload, ?_⟩
  rintro t rfl
  exact execGenks_of_shifts hl (by omega) hr'

/-- Settles O17: from both states the LOAD constructs the same Register, and GENKS runs its chain. -/
theorem keystreamDeterminedBySeed : Obligations.KeystreamDeterminedBySeed := by
  intro seed tap n s1 s2 hacc hlen htap hn hseed1 hn1 hseed2 hn2
  obtain ⟨r, r', bs, hbs, hload, hgen⟩ := hacc.keystream hlen htap hn
  obtain ⟨hrun1, hall1⟩ := generateKeystream_of_exec hseed1 hn1 (hload s1) hgen
  obtain ⟨hrun2, hall2⟩ := generateKeystream_of_exec hseed2 hn2 (hload s2) hgen
  exact ⟨symsOf bs, _, _, (symsOf_length bs).trans hbs, bitString_symsOf bs, hrun1, hrun2, hall1, hall2, rfl⟩

/-- GENERATEKEYSTREAM whose GENKS is answered with a fault fails with it. -/
theorem generateKeystream_fails {seed : List Symbol} {tap n : Int} {s : State} {r : Register} {st : Byte}
    (hseed : AdmitsSeed s seed) (hload : exec (.load seed tap) s = .next (s.answered r [0x00#8]))
    (hgen : issue (.genks n) (s.answered r [0x00#8]) = some ([st], (s.answered r [0x00#8]).answered r [st])) :
    generateKeystream seed tap n s = .failed [st] ((s.answered r [0x00#8]).answered r [st]) := by
  rw [generateKeystream, afterLoad_of_ok (hseed.withinLimits tap) hload, hgen]
  rfl

theorem genks_overBound {lim : Limits} {m : Nat} {n : Int} (hm : lim.nmax = some m) (h : (m : Int) < n) :
    Instr.withinLimits lim (.genks n) = false := by
  rw [Instr.withinLimits, okSteps, hm]
  exact withinBound_eq_false (by omega)

/-- Settles O56: after the LOAD a negative `steps` is GENKS's fault, one above NMAX the interface's. -/
theorem generateKeystreamFailsOnBadSteps : Obligations.GenerateKeystreamFailsOnBadSteps := by
  intro seed tap n s hacc hseed
  obtain ⟨bs, rfl, hne, h1, h2⟩ := hacc.exists_bits
  have hload := execLoad_symsOf s hne h1 h2
  refine ⟨_, hload, fun hneg => ?_, fun m hm hlt => ?_⟩
  · have hlim : Instr.withinLimits s.limits (.genks n) = true := by
      rw [Instr.withinLimits, okSteps, Int.toNat_of_nonpos hneg.le]
      exact withinBound_iff.2 fun m _ => m.zero_le
    exact generateKeystream_fails hseed hload (issue_of_exec hlim (exec_of_raises (.invalidSteps rfl hneg)))
  · exact generateKeystream_fails hseed hload (issue_of_overBound (genks_overBound hm hlt))

/-- A LOAD above LMAX ends the run that begins with it (R100). -/
theorem afterLoad_of_overBound {α : Type} {seed : List Symbol} {s : State} {m : Nat} (hm : s.limits.lmax = some m)
    (h : m < seed.length) (tap : Int) (go : State → PseudoResult α) :
    afterLoad seed tap s go = .failed [0x08#8] (s.answered s.reg [0x08#8]) := by
  refine afterLoad_of_fault (issue_of_overBound ?_) (by decide) go
  rw [Instr.withinLimits, hm]
  exact withinBound_eq_false h

/-- Settles O55: the four runs begin with the LOAD. -/
theorem procImgRefusesOversizeSeed : Obligations.ProcImgRefusesOversizeSeed := by
  intro img seed tap n s m hm h
  have himg : procImg img seed tap s = .failed [0x08#8] (s.answered s.reg [0x08#8]) :=
    afterLoad_of_overBound hm h tap _
  exact ⟨himg, himg, himg, afterLoad_of_overBound hm h tap _⟩

end Sys2Proof.Machine

/-! The XorCombiner family (42_xor_combiner.md): padding both operands to any common length turns the combination into
a position-wise one, `leftPad_combineWith`; the algebra of COMBINE is then that of XOR. -/

namespace Sys2Proof.Machine

/-! ### Left padding and position-wise combination -/

section Padding

variable {α : Type} {z : α} {op : α → α → α}

theorem leftPad_of_le {n : Nat} {xs : List α} (h : n ≤ xs.length) : leftPad z n xs = xs := by
  rw [leftPad, Nat.sub_eq_zero_of_le h]
  rfl

theorem leftPad_replicate (n m : Nat) : leftPad z n (List.replicate m z) = List.replicate (max n m) z := by
  rw [leftPad, List.length_replicate, List.replicate_append_replicate, Nat.sub_add_eq_max]

/-- Padding further is padding in front. -/
theorem leftPad_eq_append {m n : Nat} {xs : List α} (hm : xs.length ≤ m) (h : m ≤ n) :
    leftPad z n xs = List.replicate (n - m) z ++ leftPad z m xs := by
  have hk : n - xs.length = n - m + (m - xs.length) := by omega
  rw [leftPad, leftPad, hk, List.replicate_add, List.append_assoc]

/-- Padding a combination is combining the operands padded to that length. -/
theorem leftPad_combineWith (hz : op z z = z) {n : Nat} {a b : List α} (ha : a.length ≤ n) (hb : b.length ≤ n) :
    leftPad z n (combineWith z op a b) = List.zipWith op (leftPad z n a) (leftPad z n b) := by
  have hmax : max a.length b.length ≤ n := max_le ha hb
  rw [leftPad, combineWith_length, leftPad_eq_append (le_max_left _ _) hmax, leftPad_eq_append (le_max_right _ _) hmax,
    List.zipWith_append (by simp), List.zipWith_replicate, min_self, hz]
  rfl

theorem combineWith_comm (hop : ∀ x y, op x y = op y x) (a b : List α) :
    combineWith z op a b = combineWith z op b a := by
  rw [combineWith, combineWith, List.zipWith_comm_of_comm hop, max_comm]

theorem zipWith_assoc (hop : ∀ x y w, op (op x y) w = op x (op y w)) (a b c : List α) :
    List.zipWith op (List.zipWith op a b) c = List.zipWith op a (List.zipWith op b c) := by
  refine List.ext_getElem (by simp [min_assoc]) fun i h1 h2 => ?_
  simp [hop]

/-- A combination is the position-wise one of its operands padded to its own length. -/
theorem combineWith_eq_zipWith (hz : op z z = z) {n : Nat} {a b : List α} (h : n = max a.length b.length) :
    combineWith z op a b = List.zipWith op (leftPad z n a) (leftPad z n b) := by
  rw [h, ← leftPad_combineWith hz (le_max_left _ _) (le_max_right _ _), leftPad_of_le (by simp)]

theorem combineWith_assoc (hz : op z z = z) (hop : ∀ x y w, op (op x y) w = op x (op y w)) (a b c : List α) :
    combineWith z op (combineWith z op a b) c = combineWith z op a (combineWith z op b c) := by
  obtain ⟨n, hn⟩ : ∃ n, n = max a.length (max b.length c.length) := ⟨_, rfl⟩
  have ha : a.length ≤ n := by omega
  have hb : b.length ≤ n := by omega
  have hc : c.length ≤ n := by omega
  calc combineWith z op (combineWith z op a b) c
      = List.zipWith op (List.zipWith op (leftPad z n a) (leftPad z n b)) (leftPad z n c) := by
        rw [combineWith_eq_zipWith hz (n := n) (by simp; omega), leftPad_combineWith hz ha hb]
    _ = List.zipWith op (leftPad z n a) (List.zipWith op (leftPad z n b) (leftPad z n c)) := zipWith_assoc hop _ _ _
    _ = combineWith z op a (combineWith z op b c) := by
        rw [combineWith_eq_zipWith hz (n := n) (by simpa using hn), leftPad_combineWith hz hb hc]

theorem combineWith_self (hz : op z z = z) (hself : ∀ x, op x x = z) (a : List α) :
    combineWith z op a a = List.replicate a.length z := by
  rw [combineWith_eq_zipWith hz (max_self _).symm, leftPad_of_le le_rfl, List.zipWith_self]
  simp only [hself, List.map_const']

/-- Combining with zeros only pads. -/
theorem combineWith_replicate (hz : op z z = z) (hzero : ∀ x, op x z = x) (m : Nat) (a : List α) :
    combineWith z op a (List.replicate m z) = leftPad z m a := by
  refine List.ext_getElem (by simp [max_comm]) fun i h1 h2 => ?_
  have hpad : leftPad z (max a.length m) a = leftPad z m a := by
    rw [leftPad, leftPad]
    congr 2
    omega
  simp only [combineWith_eq_zipWith hz rfl, leftPad_replicate, List.getElem_zipWith, List.getElem_replicate, hzero,
    List.length_replicate, hpad]

/-- A sequence combined twice with the same one is itself, padded. -/
theorem combineWith_cancel (hz : op z z = z) (hop : ∀ x y w, op (op x y) w = op x (op y w)) (hself : ∀ x, op x x = z)
    (hzero : ∀ x, op x z = x) (a b : List α) :
    combineWith z op (combineWith z op a b) b = leftPad z b.length a := by
  rw [combineWith_assoc hz hop, combineWith_self hz hself, combineWith_replicate hz hzero]

end Padding

/-! ### COMBINE on characters -/

theorem combineBits_comm (x y : List Bit) : combineBits x y = combineBits y x := combineWith_comm Bool.xor_comm x y

theorem combineBits_assoc (x y w : List Bit) :
    combineBits (combineBits x y) w = combineBits x (combineBits y w) := combineWith_assoc rfl Bool.xor_assoc x y w

theorem combineBits_self (x : List Bit) : combineBits x x = List.replicate x.length false :=
  combineWith_self rfl Bool.xor_self x

theorem combineBits_zeros (m : Nat) (x : List Bit) : combineBits x (List.replicate m false) = leftPad false m x :=
  combineWith_replicate rfl Bool.xor_false m x

theorem combineBits_cancel (x y : List Bit) : combineBits (combineBits x y) y = leftPad false y.length x :=
  combineWith_cancel rfl Bool.xor_assoc Bool.xor_self Bool.xor_false x y

theorem symsOf_replicate_false (m : Nat) : symsOf (List.replicate m false) = List.replicate m sym0 := List.map_replicate

theorem symsOf_leftPad (n : Nat) (x : List Bit) :
    symsOf (leftPad false n x) = List.replicate (n - x.length) sym0 ++ symsOf x := by
  rw [leftPad, symsOf, List.map_append, List.map_replicate]
  rfl

/-- COMBINE of the characters of two sequences of bits. -/
theorem execCombine_symsOf {x y : List Bit} (s : State) (hx : x.length < 2 ^ 32) (hy : y.length < 2 ^ 32) :
    exec (.combine (symsOf x) (symsOf y)) s =
      .next (s.answered s.reg (0x00#8 :: strBytes (symsOf (combineBits x y)))) := combineStrings_symsOf s hx hy

/-- ENCRYPT, and DECRYPT, of the characters of two sequences of bits, the keystream's not empty. -/
theorem withKeystream_symsOf {x y : List Bit} (s : State) (hne : symsOf y ≠ []) (hx : x.length < 2 ^ 32)
    (hy : y.length < 2 ^ 32) : withKeystream (symsOf y) s (combineStrings (symsOf x) (symsOf y) s) =
      .next (s.answered s.reg (0x00#8 :: strBytes (symsOf (combineBits x y)))) :=
  (withKeystream_of_ne hne s _).trans (combineStrings_symsOf s hx hy)

/-- Settles O18: COMBINE XORs the padded operands at each position. -/
theorem combineXorsPaddedStrings : Obligations.CombineXorsPaddedStrings := by
  intro a b s ha hb hla hlb
  obtain ⟨r, hlen, hxor, hex⟩ := exec_combiner s ha hb hla hlb (.inl rfl)
  refine ⟨r, hlen, hex, fun j hj => ?_⟩
  rw [hlen] at hj ⊢
  obtain ⟨c, hc⟩ := paddedAt_isSome sym0 (le_max_left a.length b.length) hj
  obtain ⟨d, hd⟩ := paddedAt_isSome sym0 (le_max_right a.length b.length) hj
  exact ⟨c, d, hc, hd, hxor j c d hc hd⟩

/-- Settles O20: the symbols are checked after the keystream. -/
theorem nonBinaryOperandRefused : Obligations.NonBinaryOperandRefused :=
  fun _ _ _ hbad => ⟨exec_of_raises (.combineOperand hbad), fun hk =>
    ⟨exec_of_raises (.encryptOperand hk hbad), exec_of_raises (.decryptOperand hk hbad)⟩⟩

/-- Settles O22: the keystream cancels. -/
theorem decryptUndoesEncrypt : Obligations.DecryptUndoesEncrypt := by
  intro p k s hp hk hne hlp hlk
  obtain ⟨x, rfl⟩ := hp.exists_bits
  obtain ⟨y, rfl⟩ := hk.exists_bits
  rw [symsOf_length] at hlp hlk
  refine ⟨symsOf (combineBits x y), withKeystream_symsOf s hne hlp hlk, fun t => ?_⟩
  have hlc : (combineBits x y).length < 2 ^ 32 := by simpa using ⟨hlp, hlk⟩
  have hdec := withKeystream_symsOf t hne hlc hlk
  rw [combineBits_cancel, symsOf_leftPad] at hdec
  rw [symsOf_length, symsOf_length]
  exact hdec

/-- The check and the XOR do not tell the operands apart (R131 (b)). -/
theorem combineStrings_comm (a b : List Symbol) (s : State) : combineStrings a b s = combineStrings b a s := by
  rw [combineStrings, combineStrings]
  rcases bitsOf a with _ | x <;> rcases bitsOf b with _ | y
  · rfl
  · rfl
  · rfl
  · simp only [combineBits_comm]

/-- Settles O24: XOR is commutative, 0 is neutral, and a bit with itself is 0. -/
theorem combineAlgebra : Obligations.CombineAlgebra := by
  refine fun a b m s => ⟨combineStrings_comm a b s, fun ha hla hm => ?_⟩
  obtain ⟨x, rfl⟩ := ha.exists_bits
  rw [symsOf_length] at hla ⊢
  have hzeros := execCombine_symsOf (y := List.replicate m false) s hla (by simpa using hm)
  have hself := execCombine_symsOf s hla hla
  rw [combineBits_zeros, symsOf_replicate_false, symsOf_leftPad] at hzeros
  rw [combineBits_self, symsOf_replicate_false] at hself
  exact ⟨hzeros, hself⟩

/-- The combination of three sequences at a position (R131 (f)). -/
theorem combineBits_combineBits_getElem? {x y w : List Bit} {j : Nat}
    (hj : j < max x.length (max y.length w.length)) :
    ∃ b c d, paddedAt false (max x.length (max y.length w.length)) x j = some b ∧
      paddedAt false (max x.length (max y.length w.length)) y j = some c ∧
      paddedAt false (max x.length (max y.length w.length)) w j = some d ∧
      (combineBits (combineBits x y) w)[j]? = some ((b ^^ c) ^^ d) := by
  obtain ⟨n, hn⟩ : ∃ n, n = max x.length (max y.length w.length) := ⟨_, rfl⟩
  rw [← hn] at hj ⊢
  obtain ⟨b, hb⟩ := paddedAt_isSome false (by omega : x.length ≤ n) hj
  obtain ⟨c, hc⟩ := paddedAt_isSome false (by omega : y.length ≤ n) hj
  obtain ⟨d, hd⟩ := paddedAt_isSome false (by omega : w.length ≤ n) hj
  refine ⟨b, c, d, hb, hc, hd, ?_⟩
  rw [combineBits, combineWith_eq_zipWith rfl (n := n) (by simp; omega), combineBits,
    leftPad_combineWith rfl (by omega) (by omega)]
  simp only [List.getElem?_zipWith, leftPad_getElem?, hb, hc, hd]

/-- Settles O25: XOR is associative, and both orders pad to the longest operand. -/
theorem combineAssociative : Obligations.CombineAssociative := by
  intro a b c s ha hb hc hla hlb hlc
  obtain ⟨x, rfl⟩ := ha.exists_bits
  obtain ⟨y, rfl⟩ := hb.exists_bits
  obtain ⟨w, rfl⟩ := hc.exists_bits
  rw [symsOf_length] at hla hlb hlc
  have hlen : (symsOf (combineBits (combineBits x y) w)).length = max x.length (max y.length w.length) := by
    simp [max_assoc]
  refine ⟨symsOf (combineBits x y), symsOf (combineBits y w), symsOf (combineBits (combineBits x y) w),
    execCombine_symsOf s hla hlb, execCombine_symsOf s hlb hlc, fun t => ⟨?_, ?_⟩, by simp [max_assoc], fun j hj => ?_⟩
  · exact execCombine_symsOf t (by simpa using ⟨hla, hlb⟩) hlc
  · rw [combineBits_assoc]
    exact execCombine_symsOf t hla (by simpa using ⟨hlb, hlc⟩)
  · rw [hlen] at hj ⊢
    obtain ⟨b, c, d, hb, hc, hd, hr⟩ := combineBits_combineBits_getElem? hj
    refine ⟨symOf b, symOf c, symOf d, ?_, ?_, ?_, ?_⟩
    · rw [paddedAt_symsOf, hb, Option.map_some]
    · rw [paddedAt_symsOf, hc, Option.map_some]
    · rw [paddedAt_symsOf, hd, Option.map_some]
    · rw [xorSym_symOf, xorSym_symOf]
      exact symsOf_getElem?_eq_some.2 hr

/-! ### COMBINEB -/

theorem execCombineb_eq {a b : List Byte} (s : State) (ha : a.length < 2 ^ 32) (hb : b.length < 2 ^ 32) :
    exec (.combineb a b) s = .next (s.answered s.reg (0x00#8 :: strBytes (combineBytes a b))) :=
  answer_of_frame (frame_bytes (by simpa using ⟨ha, hb⟩)) s

/-- Settles O26: COMBINEB XORs the padded operands at each position. -/
theorem combinebXorsPaddedBytes : Obligations.CombinebXorsPaddedBytes := by
  intro a b s ha hb
  have hlen := combineBytes_length a b
  refine ⟨combineBytes a b, hlen, execCombineb_eq s ha hb, fun j hj => ?_⟩
  rw [hlen] at hj ⊢
  obtain ⟨c, hc⟩ := paddedAt_isSome 0x00#8 (le_max_left a.length b.length) hj
  obtain ⟨d, hd⟩ := paddedAt_isSome 0x00#8 (le_max_right a.length b.length) hj
  refine ⟨c, d, hc, hd, ?_⟩
  rw [combineBytes, combineWith_getElem?, hc, hd]

theorem byteBits_length (v : Byte) : (byteBits v).length = 8 := by simp [byteBits]

theorem byteBits_xor (v w : Byte) :
    byteBits (v ^^^ w) = List.zipWith (fun x y => x ^^ y) (byteBits v) (byteBits w) := by
  simp [byteBits, List.zipWith_map]

theorem flatMap_byteBits_length (a : List Byte) : (a.flatMap byteBits).length = 8 * a.length := by
  simp [List.length_flatMap, byteBits_length, Nat.mul_comm]

theorem flatMap_byteBits_zipWith {a b : List Byte} (h : a.length = b.length) :
    (List.zipWith (fun x y => x ^^^ y) a b).flatMap byteBits =
      List.zipWith (fun x y => x ^^ y) (a.flatMap byteBits) (b.flatMap byteBits) := by
  induction a generalizing b with
  | nil => rfl
  | cons v a ih =>
    cases b with
    | nil => cases h
    | cons w b =>
      rw [List.zipWith_cons_cons, List.flatMap_cons, List.flatMap_cons, List.flatMap_cons, ih (Nat.succ.inj h),
        byteBits_xor, List.zipWith_append (by rw [byteBits_length, byteBits_length])]

/-- A padding byte is eight padding bits. -/
theorem flatMap_byteBits_leftPad (n : Nat) (a : List Byte) :
    (leftPad 0x00#8 n a).flatMap byteBits = leftPad false (8 * n) (a.flatMap byteBits) := by
  have hzero : byteBits 0x00#8 = List.replicate 8 false := by decide
  have hlen : 8 * n - 8 * a.length = (n - a.length) * 8 := by omega
  rw [leftPad, leftPad, flatMap_byteBits_length, List.flatMap_append, List.flatMap_replicate, hzero,
    List.flatten_replicate_replicate, hlen]

/-- The bits of a byte XOR are the XOR of the bits (R135, R42). -/
theorem flatMap_byteBits_combineBytes (a b : List Byte) :
    (combineBytes a b).flatMap byteBits = combineBits (a.flatMap byteBits) (b.flatMap byteBits) := by
  rw [combineBytes, combineBits, combineWith_eq_zipWith rfl rfl, flatMap_byteBits_zipWith (by simp),
    flatMap_byteBits_leftPad, flatMap_byteBits_leftPad]
  refine (combineWith_eq_zipWith rfl ?_).symm
  rw [flatMap_byteBits_length, flatMap_byteBits_length]
  omega

/-- Settles O27: expansion turns bytes padded and XORed into bits padded and XORed. -/
theorem combinebIsCombineOfBits : Obligations.CombinebIsCombineOfBits := by
  intro a b s ha hb
  refine ⟨combineBytes a b, execCombineb_eq s (by omega) (by omega), ?_⟩
  rw [flatMap_byteBits_combineBytes]
  exact execCombine_symsOf s (by rwa [flatMap_byteBits_length]) (by rwa [flatMap_byteBits_length])

end Sys2Proof.Machine

/-! The image walk (43_byte_cipher.md section 2) and the text cipher (70_reset_and_hazards.md section 2):
`walkChannel_eq_some` says once what the walk does to a channel value, and the facts about pixels, rows and images
follow their recursion. -/

namespace Sys2Proof.Machine

/-! ### One channel value -/

/-- The walk over a channel value runs SHIFTBYTE's steps and XORs their byte (R150, R152). -/
theorem walkChannel_eq_some {v v' : Byte} {s t : State} : walkChannel v s = some (v', t) ↔
    ∃ bs r, s.reg.loaded = true ∧ Register.shifts 8 s.reg = some (bs, r) ∧ v' = v ^^^ packByte bs ∧
      t = s.answered r [0x00#8, v'] := by
  constructor
  · intro h
    rcases hl : s.reg.loaded with _ | _
    · have hissue := issue_of_exec (i := .xorbyte v) rfl (exec_of_not_loaded rfl hl)
      rw [walkChannel, hissue] at h
      cases h
    · rcases hr : Register.shifts 8 s.reg with _ | ⟨bs, r⟩
      · have hex : exec (.xorbyte v) s = .fault .missingElement := by
          rw [exec, execXorbyte, withRegister_of_loaded hl, Register.shiftByte_eq, hr]
          rfl
        have hissue : issue (.xorbyte v) s = none := by
          rw [issue, acceptCommand_of_within rfl, hex]
        rw [walkChannel, hissue] at h
        cases h
      · rw [walkChannel_of_exec (execXorbyte_of_shifts v hl hr)] at h
        cases h
        exact ⟨bs, r, rfl, rfl, rfl, rfl⟩
  · rintro ⟨bs, r, hl, hr, rfl, rfl⟩
    exact walkChannel_of_exec (execXorbyte_of_shifts v hl hr)

/-- The walk over a channel value is the issued XORBYTE, its response the new value. -/
theorem issue_of_walkChannel {v v' : Byte} {s t : State} (h : walkChannel v s = some (v', t)) :
    issue (.xorbyte v) s = some ([0x00#8, v'], t) := by
  obtain ⟨bs, r, hl, hr, rfl, rfl⟩ := walkChannel_eq_some.1 h
  exact issue_of_exec rfl (execXorbyte_of_shifts v hl hr)

/-- From an equal record the walk over the new value gives the old one back (R153). -/
theorem walkChannel_inverse {v v' : Byte} {s t u : State} (h : walkChannel v s = some (v', t)) (hu : u.reg = s.reg) :
    ∃ w, walkChannel v' u = some (v, w) ∧ w.reg = t.reg := by
  obtain ⟨bs, r, hl, hr, rfl, rfl⟩ := walkChannel_eq_some.1 h
  refine ⟨u.answered r [0x00#8, v], walkChannel_eq_some.2 ⟨bs, r, hu ▸ hl, hu ▸ hr, ?_, rfl⟩, rfl⟩
  rw [BitVec.xor_assoc, BitVec.xor_self, BitVec.xor_zero]

/-- A state with a sound loaded Register. -/
def State.Ready (s : State) : Prop := s.reg.Sound ∧ s.reg.loaded = true

theorem State.Ready.walkChannel {s : State} (h : s.Ready) (v : Byte) :
    ∃ v' t, Machine.walkChannel v s = some (v', t) ∧ t.Ready := by
  obtain ⟨hs, hl⟩ := h
  obtain ⟨bs, r, hr, -, hl', -, -, hs'⟩ := hs.shifts hl 8
  exact ⟨_, _, walkChannel_eq_some.2 ⟨bs, r, hl, hr, rfl, rfl⟩, hs', hl'⟩

/-! ### Pixels, rows, images -/

/-- The three channel values of a pixel one after another. -/
theorem walkPixel_eq_some {p q : Pixel} {s t : State} : walkPixel p s = some (q, t) ↔
    ∃ s1 s2, walkChannel p.r s = some (q.r, s1) ∧ walkChannel p.g s1 = some (q.g, s2) ∧
      walkChannel p.b s2 = some (q.b, t) ∧ q.a = p.a := by
  constructor
  · intro h
    rw [walkPixel] at h
    split at h
    · cases h
    · split at h
      · cases h
      · split at h
        · cases h
        · cases h
          exact ⟨_, _, ‹_›, ‹_›, ‹_›, rfl⟩
  · rintro ⟨s1, s2, hr, hg, hb, ha⟩
    simp only [walkPixel, hr, hg, hb, ← ha]

theorem walkRow_cons {p : Pixel} {ps out : List Pixel} {s t : State} : walkRow (p :: ps) s = some (out, t) ↔
    ∃ q qs s1, walkPixel p s = some (q, s1) ∧ walkRow ps s1 = some (qs, t) ∧ out = q :: qs := by
  rw [walkRow]
  rcases walkPixel p s with _ | ⟨q, s1⟩
  · simp
  · rcases hrow : walkRow ps s1 with _ | ⟨qs, s2⟩ <;> simp [hrow, eq_comm, and_comm]

theorem walkImage_cons {row : List Pixel} {rows out : Image} {s t : State} :
    walkImage (row :: rows) s = some (out, t) ↔
      ∃ q qs s1, walkRow row s = some (q, s1) ∧ walkImage rows s1 = some (qs, t) ∧ out = q :: qs := by
  rw [walkImage]
  rcases walkRow row s with _ | ⟨q, s1⟩
  · simp
  · rcases hrows : walkImage rows s1 with _ | ⟨qs, s2⟩ <;> simp [hrows, eq_comm, and_comm]

/-- Issuing the XORBYTE commands of `vs` from `s` ends in `t`, with the responses that carry `vs'`. -/
def MasksTo (vs vs' : List Byte) (s t : State) : Prop :=
  issueAll (vs.map .xorbyte) s = some (vs'.map (fun v => [0x00#8, v]), t)

theorem MasksTo.append {vs vs' ws ws' : List Byte} {s t u : State} (h1 : MasksTo vs vs' s t) (h2 : MasksTo ws ws' t u) :
    MasksTo (vs ++ ws) (vs' ++ ws') s u := by
  rw [MasksTo] at h1 h2 ⊢
  rw [List.map_append, issueAll_append, h1, Option.bind_some, h2, List.map_append]
  rfl

theorem masksTo_of_walkPixel {p q : Pixel} {s t : State} (h : walkPixel p s = some (q, t)) :
    MasksTo p.channels q.channels s t := by
  obtain ⟨s1, s2, hr, hg, hb, -⟩ := walkPixel_eq_some.1 h
  simp [MasksTo, Pixel.channels, issueAll_cons, issueAll_nil, issue_of_walkChannel hr, issue_of_walkChannel hg,
    issue_of_walkChannel hb]

theorem masksTo_of_walkRow {ps qs : List Pixel} {s t : State} (h : walkRow ps s = some (qs, t)) :
    MasksTo (ps.flatMap Pixel.channels) (qs.flatMap Pixel.channels) s t := by
  induction ps generalizing s qs with
  | nil =>
    cases h
    rfl
  | cons p ps ih =>
    obtain ⟨q, qs, s1, hp, hps, rfl⟩ := walkRow_cons.1 h
    rw [List.flatMap_cons, List.flatMap_cons]
    exact (masksTo_of_walkPixel hp).append (ih hps)

theorem imageChannels_cons (row : List Pixel) (rows : Image) :
    imageChannels (row :: rows) = row.flatMap Pixel.channels ++ imageChannels rows := by
  rw [imageChannels, List.flatten_cons, List.flatMap_append, imageChannels]

/-- The walk issues one XORBYTE per channel value, in row-major order (R152). -/
theorem masksTo_of_walkImage {img out : Image} {s t : State} (h : walkImage img s = some (out, t)) :
    MasksTo (imageChannels img) (imageChannels out) s t := by
  induction img generalizing s out with
  | nil =>
    cases h
    rfl
  | cons row rows ih =>
    obtain ⟨q, qs, s1, hrow, hrows, rfl⟩ := walkImage_cons.1 h
    rw [imageChannels_cons, imageChannels_cons]
    exact (masksTo_of_walkRow hrow).append (ih hrows)

/-! ### The walk keeps the shape of the image -/

theorem shape_of_walkRow {ps qs : List Pixel} {s t : State} (h : walkRow ps s = some (qs, t)) :
    qs.map Pixel.a = ps.map Pixel.a := by
  induction ps generalizing s qs with
  | nil =>
    cases h
    rfl
  | cons p ps ih =>
    obtain ⟨q, qs, s1, hp, hps, rfl⟩ := walkRow_cons.1 h
    obtain ⟨-, -, -, -, -, ha⟩ := walkPixel_eq_some.1 hp
    rw [List.map_cons, List.map_cons, ha, ih hps]

theorem shape_of_walkImage {img out : Image} {s t : State} (h : walkImage img s = some (out, t)) :
    out.map (List.map Pixel.a) = img.map (List.map Pixel.a) := by
  induction img generalizing s out with
  | nil =>
    cases h
    rfl
  | cons row rows ih =>
    obtain ⟨q, qs, s1, hrow, hrows, rfl⟩ := walkImage_cons.1 h
    rw [List.map_cons, List.map_cons, shape_of_walkRow hrow, ih hrows]

/-- Equal alphas row by row: equal widths, and equal alphas in row-major order. -/
theorem widths_of_shape {img out : Image} (h : out.map (List.map Pixel.a) = img.map (List.map Pixel.a)) :
    out.map List.length = img.map List.length ∧ out.flatten.map Pixel.a = img.flatten.map Pixel.a := by
  have hlen := congrArg (List.map List.length) h
  have hflat := congrArg List.flatten h
  simp only [List.map_map] at hlen
  rw [← List.map_flatten, ← List.map_flatten] at hflat
  exact ⟨by simpa [Function.comp_def] using hlen, hflat⟩

/-! ### On a sound loaded register the walk ends, and is undone by itself -/

theorem State.Ready.walkPixel {s : State} (h : s.Ready) (p : Pixel) :
    ∃ q t, Machine.walkPixel p s = some (q, t) ∧ t.Ready := by
  obtain ⟨r, s1, hr, h1⟩ := h.walkChannel p.r
  obtain ⟨g, s2, hg, h2⟩ := h1.walkChannel p.g
  obtain ⟨b, t, hb, ht⟩ := h2.walkChannel p.b
  exact ⟨⟨r, g, b, p.a⟩, t, walkPixel_eq_some.2 ⟨s1, s2, hr, hg, hb, rfl⟩, ht⟩

theorem State.Ready.walkRow {s : State} (h : s.Ready) (ps : List Pixel) :
    ∃ qs t, Machine.walkRow ps s = some (qs, t) ∧ t.Ready := by
  induction ps generalizing s with
  | nil => exact ⟨[], s, rfl, h⟩
  | cons p ps ih =>
    obtain ⟨q, s1, hp, h1⟩ := h.walkPixel p
    obtain ⟨qs, t, hps, ht⟩ := ih h1
    exact ⟨q :: qs, t, walkRow_cons.2 ⟨q, qs, s1, hp, hps, rfl⟩, ht⟩

theorem State.Ready.walkImage {s : State} (h : s.Ready) (img : Image) :
    ∃ out t, Machine.walkImage img s = some (out, t) ∧ t.Ready := by
  induction img generalizing s with
  | nil => exact ⟨[], s, rfl, h⟩
  | cons row rows ih =>
    obtain ⟨q, s1, hrow, h1⟩ := h.walkRow row
    obtain ⟨qs, t, hrows, ht⟩ := ih h1
    exact ⟨q :: qs, t, walkImage_cons.2 ⟨q, qs, s1, hrow, hrows, rfl⟩, ht⟩

theorem walkPixel_inverse {p q : Pixel} {s t u : State} (h : walkPixel p s = some (q, t)) (hu : u.reg = s.reg) :
    ∃ w, walkPixel q u = some (p, w) ∧ w.reg = t.reg := by
  obtain ⟨s1, s2, hr, hg, hb, ha⟩ := walkPixel_eq_some.1 h
  obtain ⟨u1, hr', h1⟩ := walkChannel_inverse hr hu
  obtain ⟨u2, hg', h2⟩ := walkChannel_inverse hg h1
  obtain ⟨w, hb', hw⟩ := walkChannel_inverse hb h2
  exact ⟨w, walkPixel_eq_some.2 ⟨u1, u2, hr', hg', hb', ha.symm⟩, hw⟩

theorem walkRow_inverse {ps qs : List Pixel} {s t u : State} (h : walkRow ps s = some (qs, t)) (hu : u.reg = s.reg) :
    ∃ w, walkRow qs u = some (ps, w) ∧ w.reg = t.reg := by
  induction ps generalizing s qs u with
  | nil =>
    cases h
    exact ⟨u, rfl, hu⟩
  | cons p ps ih =>
    obtain ⟨q, qs, s1, hp, hps, rfl⟩ := walkRow_cons.1 h
    obtain ⟨u1, hp', h1⟩ := walkPixel_inverse hp hu
    obtain ⟨w, hps', hw⟩ := ih hps h1
    exact ⟨w, walkRow_cons.2 ⟨p, ps, u1, hp', hps', rfl⟩, hw⟩

/-- From an equal record the walk over the output gives the image back (R153). -/
theorem walkImage_inverse {img out : Image} {s t u : State} (h : walkImage img s = some (out, t))
    (hu : u.reg = s.reg) : ∃ w, walkImage out u = some (img, w) ∧ w.reg = t.reg := by
  induction img generalizing s out u with
  | nil =>
    cases h
    exact ⟨u, rfl, hu⟩
  | cons row rows ih =>
    obtain ⟨q, qs, s1, hrow, hrows, rfl⟩ := walkImage_cons.1 h
    obtain ⟨u1, hrow', h1⟩ := walkRow_inverse hrow hu
    obtain ⟨w, hrows', hw⟩ := ih hrows h1
    exact ⟨w, walkImage_cons.2 ⟨row, rows, u1, hrow', hrows', rfl⟩, hw⟩

/-! ### PROCIMG -/

/-- PROCIMG on a seed within LMAX is the walk after the LOAD. -/
theorem procImg_of_walk {img out : Image} {seed : List Symbol} {tap : Int} {s t : State} {r : Register}
    (hseed : AdmitsSeed s seed) (hload : exec (.load seed tap) s = .next (s.answered r [0x00#8]))
    (h : walkImage img (s.answered r [0x00#8]) = some (out, t)) : procImg img seed tap s = .done out t := by
  rw [procImg, afterLoad_of_ok (hseed.withinLimits tap) hload, h]

/-- When PROCIMG is done its LOAD was answered with OK, and the rest was the walk. -/
theorem procImg_eq_done {img out : Image} {seed : List Symbol} {tap : Int} {s t : State}
    (h : procImg img seed tap s = .done out t) :
    ∃ s1, issue (.load seed tap) s = some ([0x00#8], s1) ∧ walkImage img s1 = some (out, t) := by
  rw [procImg, afterLoad] at h
  split at h
  · cases h
  · rename_i f s1 hissue
    split at h
    · rename_i hf
      split at h
      · cases h
        exact ⟨s1, by rw [hissue, hf]; rfl, ‹_›⟩
      · cases h
    · cases h

/-- Settles O30: the walk issues the XORBYTE commands. -/
theorem procImgIssuesItsCommands : Obligations.ProcImgIssuesItsCommands := by
  intro img seed tap s t out h
  obtain ⟨s1, hload, hwalk⟩ := procImg_eq_done h
  have hmask := masksTo_of_walkImage hwalk
  rw [MasksTo] at hmask
  rw [procImgCommands, issueAll_cons, hload, Option.bind_some, hmask]
  rfl

/-- Settles O29: both runs walk from the Register that their LOAD constructs. -/
theorem procImgTwiceIsIdentity : Obligations.ProcImgTwiceIsIdentity := by
  intro img seed tap s s2 hacc hseed hseed2 hlen htap
  obtain ⟨r, hs, hl, hload⟩ := hacc.constructs hlen htap
  have hready : (s.answered r [0x00#8]).Ready := ⟨hs, hl⟩
  obtain ⟨out, t, hwalk, -⟩ := hready.walkImage img
  obtain ⟨t2, hback, -⟩ := walkImage_inverse (u := s2.answered r [0x00#8]) hwalk rfl
  have hfirst := procImg_of_walk hseed (hload s) hwalk
  have hsecond := procImg_of_walk hseed2 (hload s2) hback
  exact ⟨out, t, t2, hfirst, hsecond, hfirst, hsecond⟩

theorem MasksTo.of_cons {v : Byte} {vs out : List Byte} {s t : State} (h : MasksTo (v :: vs) out s t) :
    ∃ v' vs' s1, issue (.xorbyte v) s = some ([0x00#8, v'], s1) ∧ MasksTo vs vs' s1 t ∧ out = v' :: vs' := by
  rw [MasksTo, List.map_cons, issueAll_cons] at h
  obtain ⟨⟨f, s1⟩, h1, h⟩ := Option.bind_eq_some_iff.1 h
  obtain ⟨⟨fs, s2⟩, h2, heq⟩ := Option.map_eq_some_iff.1 h
  obtain ⟨hout, rfl⟩ := Prod.mk.inj heq
  obtain ⟨v', vs', rfl, rfl, rfl⟩ := List.map_eq_cons_iff.1 hout.symm
  exact ⟨v', vs', s1, h1, h2, rfl⟩

/-- XORBYTE commands mask with the bytes that as many SHIFTBYTE commands return from the same record, and leave the
same record. -/
theorem MasksTo.exists_keystream {vs vs' : List Byte} {s t u : State} (h : MasksTo vs vs' s t) (hs : s.Ready)
    (hu : u.reg = s.reg) :
    ∃ (ks : List Byte) (w : State), ks.length = vs.length ∧
      issueAll (List.replicate vs.length .shiftbyte) u = some (ks.map (fun k => [0x00#8, k]), w) ∧
      vs' = List.zipWith (fun v k => v ^^^ k) vs ks ∧ w.reg = t.reg := by
  induction vs generalizing s vs' u with
  | nil =>
    obtain ⟨hout, rfl⟩ := Prod.mk.inj (Option.some.inj h)
    exact ⟨[], u, rfl, rfl, List.map_eq_nil_iff.1 hout.symm, hu⟩
  | cons v vs ih =>
    obtain ⟨v', vs', s1, hv, hvs, rfl⟩ := h.of_cons
    obtain ⟨hsound, hl⟩ := hs
    obtain ⟨bs, r, hr, -, hl', -, -, hsound'⟩ := hsound.shifts hl 8
    have hxor := issue_of_exec rfl (execXorbyte_of_shifts v hl hr)
    obtain ⟨hv', rfl⟩ := Prod.mk.inj (Option.some.inj (hv.symm.trans hxor))
    obtain rfl : v' = v ^^^ packByte bs := by simpa using hv'
    have hshift := issue_of_exec rfl (execShiftbyte_of_shifts (s := u) (hu ▸ hl) (hu ▸ hr))
    obtain ⟨ks, w, hlen, hall, rfl, hw⟩ := ih hvs ⟨hsound', hl'⟩ (u := u.answered r [0x00#8, packByte bs]) rfl
    refine ⟨packByte bs :: ks, w, by rw [List.length_cons, List.length_cons, hlen], ?_, rfl, hw⟩
    rw [List.length_cons, List.replicate_succ, issueAll_cons, hshift, Option.bind_some, hall]
    rfl

theorem imageChannels_length (img : Image) : (imageChannels img).length = 3 * img.flatten.length := by
  have hthree (p : Pixel) : p.channels.length = 3 := rfl
  rw [imageChannels, List.length_flatMap]
  simp only [hthree, List.map_const', List.sum_replicate, smul_eq_mul, Nat.mul_comm]

/-- Settles O28: the walk issues one XORBYTE per channel value and keeps the shape of the image. -/
theorem procImgMasksChannels : Obligations.ProcImgMasksChannels := by
  intro img seed tap s hacc hseed hlen htap
  obtain ⟨r, hs, hl, hload⟩ := hacc.constructs hlen htap
  have hready : (s.answered r [0x00#8]).Ready := ⟨hs, hl⟩
  obtain ⟨out, t, hwalk, -⟩ := hready.walkImage img
  obtain ⟨hwidths, halphas⟩ := widths_of_shape (shape_of_walkImage hwalk)
  obtain ⟨ks, u, hks, hall, hout, hreg⟩ := (masksTo_of_walkImage hwalk).exists_keystream hready rfl
  refine ⟨out, t, ks, u, procImg_of_walk hseed (hload s) hwalk, hwidths, halphas, ?_, hout,
    hks.trans (imageChannels_length img), hreg.symm⟩
  rw [issueAll_cons, issue_of_exec (hseed.withinLimits tap) (hload s), Option.bind_some, hall]
  rfl

/-! ### The text cipher -/

/-- A party of the text cipher (70_reset_and_hazards.md section 2): LOAD, GENKS, and a command that is answered in every
state and leaves the record alone. -/
theorem issueAll_textCipher {seed ks : List Symbol} {tap : Int} {n : Nat} {s : State} {r r' : Register} {i : Instr}
    {f : Frame} (hseed : AdmitsSeed s seed) (hn : AdmitsLength s n)
    (hload : exec (.load seed tap) s = .next (s.answered r [0x00#8]))
    (hgen : ∀ t : State, t.reg = r → exec (.genks n) t = .next (t.answered r' (0x00#8 :: (u32Bytes n ++ ks))))
    (hi : ∀ t : State, exec i t = .next (t.answered t.reg f)) (hlim : i.withinLimits s.limits = true) :
    ∃ t, issueAll [.load seed tap, .genks n, i] s = some ([[0x00#8], 0x00#8 :: (u32Bytes n ++ ks), f], t) := by
  obtain ⟨-, hall⟩ := generateKeystream_of_exec hseed hn hload hgen
  have hlast := issue_of_exec (s := (s.answered r [0x00#8]).answered r' (0x00#8 :: (u32Bytes n ++ ks))) hlim (hi _)
  have happ := issueAll_append (generateKeystreamCommands seed tap n) [i] s
  rw [hall, Option.bind_some, issueAll_cons, hlast] at happ
  exact ⟨_, happ⟩

/-- ENCRYPT and DECRYPT of operands of a length that NMAX admits are within the bounds. -/
theorem AdmitsLength.withinLimits_cipher {s : State} {n : Nat} {a k : List Symbol} (h : AdmitsLength s n)
    (ha : a.length = n) (hk : k.length = n) : Instr.withinLimits s.limits (.encrypt a k) = true ∧
      Instr.withinLimits s.limits (.decrypt a k) = true := by
  have hbound : withinBound s.limits.nmax n = true := withinBound_iff.2 h
  simp [Instr.withinLimits, ha, hk, hbound]

/-- Settles O23: both parties have the same keystream, of the plaintext's length, and it cancels. -/
theorem textCipherRoundTrip : Obligations.TextCipherRoundTrip := by
  intro seed tap p s1 s2 hacc hlen htap hp hne hlp hseed1 hp1 hseed2 hp2
  obtain ⟨x, rfl⟩ := hp.exists_bits
  rw [symsOf_length] at hlp hp1 hp2 ⊢
  obtain ⟨r, r', bs, hbs, hload, hgen⟩ := hacc.keystream hlen htap hlp
  have hstr : strBytes (symsOf bs) = u32Bytes x.length ++ symsOf bs := by rw [strBytes, symsOf_length, hbs]
  have hks : symsOf bs ≠ [] := by
    rw [ne_eq, ← List.length_eq_zero_iff, symsOf_length, hbs, ← symsOf_length, List.length_eq_zero_iff]
    exact hne
  have hlc : (combineBits x bs).length = x.length := by simp [hbs]
  have henc (t : State) : exec (.encrypt (symsOf x) (symsOf bs)) t =
      .next (t.answered t.reg (0x00#8 :: strBytes (symsOf (combineBits x bs)))) :=
    withKeystream_symsOf t hks (by omega) (by omega)
  have hdec (t : State) : exec (.decrypt (symsOf (combineBits x bs)) (symsOf bs)) t =
      .next (t.answered t.reg (0x00#8 :: strBytes (symsOf x))) := by
    have h := withKeystream_symsOf (x := combineBits x bs) t hks (by omega) (by omega)
    rwa [combineBits_cancel, leftPad_of_le hbs.le] at h
  obtain ⟨t1, h1⟩ := issueAll_textCipher hseed1 hp1 (hload s1) hgen henc
    (hp1.withinLimits_cipher (symsOf_length x) ((symsOf_length bs).trans hbs)).1
  obtain ⟨t2, h2⟩ := issueAll_textCipher hseed2 hp2 (hload s2) hgen hdec
    (hp2.withinLimits_cipher ((symsOf_length _).trans hlc) ((symsOf_length bs).trans hbs)).2
  exact ⟨symsOf bs, symsOf (combineBits x bs), t1, t2, hstr ▸ h1, hstr ▸ h2⟩

end Sys2Proof.Machine
